-- ==== Sys2Proof/Word.lean ====
section
/-! DEFINITION. The word types of the CHIP-8 core: 8-bit bytes and registers, 16-bit words, 12-bit memory addresses and
4-bit opcode fields (00_scope.md section 5; 30_encoding.md R91; 20_memory.md R60). Every value is unsigned. -/

namespace Sys2Proof

/-- A byte: a V register, a timer, SP, a memory byte, the literal NN (10_state.md R21, R25, R27; 30_encoding.md R91). -/
abbrev Byte := BitVec 8

/-- A 16-bit word: an opcode word, `I`, `PC`, a call-stack entry (10_state.md R23, R24, R26; 30_encoding.md R90). -/
abbrev Word := BitVec 16

/-- An address that exists in the 4096-byte memory, and the literal NNN (20_memory.md R60; 30_encoding.md R91). -/
abbrev Addr := BitVec 12

/-- A 4-bit opcode field or the low nibble of a byte (30_encoding.md R91). -/
abbrev Nibble := BitVec 4

/-- A register number 0 to 15, as the fields X and Y hold it; every value is legal (30_encoding.md R93). -/
abbrev Reg := BitVec 4

/-- A key number 0x0 to 0xF (10_state.md R31). -/
abbrev Key := BitVec 4

end Sys2Proof
end

