-- ==== Sys2Proof/Syntax.lean ====
section
/-! DEFINITION. The instruction set as a term: one constructor per row of 30_encoding.md R96 (spec/opcode_table.json), with
the operand fields of R91. Nothing here says what an instruction does. -/

namespace Sys2Proof

/-- The 34 instructions of 30_encoding.md R96. `x`, `y` are register numbers, `n`, `nn`, `nnn` the literals N, NN, NNN. In
`shr` and `shl` the field `y` is carried although the semantics ignores it (R95), so that a term keeps every bit of its word. -/
inductive Instr where
  /-- 00E0 -/
  | cls
  /-- 00EE -/
  | ret
  /-- 1NNN -/
  | jp (nnn : Addr)
  /-- 2NNN -/
  | call (nnn : Addr)
  /-- 3XNN -/
  | seImm (x : Reg) (nn : Byte)
  /-- 4XNN -/
  | sneImm (x : Reg) (nn : Byte)
  /-- 5XY0 -/
  | seReg (x y : Reg)
  /-- 6XNN -/
  | ldImm (x : Reg) (nn : Byte)
  /-- 7XNN -/
  | addImm (x : Reg) (nn : Byte)
  /-- 8XY0 -/
  | ldReg (x y : Reg)
  /-- 8XY1 -/
  | orReg (x y : Reg)
  /-- 8XY2 -/
  | andReg (x y : Reg)
  /-- 8XY3 -/
  | xorReg (x y : Reg)
  /-- 8XY4 -/
  | addReg (x y : Reg)
  /-- 8XY5 -/
  | subReg (x y : Reg)
  /-- 8XY6, `y` ignored -/
  | shr (x y : Reg)
  /-- 8XY7 -/
  | subnReg (x y : Reg)
  /-- 8XYE, `y` ignored -/
  | shl (x y : Reg)
  /-- 9XY0 -/
  | sneReg (x y : Reg)
  /-- ANNN -/
  | ldI (nnn : Addr)
  /-- BNNN -/
  | jpV0 (nnn : Addr)
  /-- CXNN -/
  | rnd (x : Reg) (nn : Byte)
  /-- DXYN -/
  | drw (x y : Reg) (n : Nibble)
  /-- EX9E -/
  | skp (x : Reg)
  /-- EXA1 -/
  | sknp (x : Reg)
  /-- FX07 -/
  | ldVxDt (x : Reg)
  /-- FX0A -/
  | ldVxKey (x : Reg)
  /-- FX15 -/
  | ldDtVx (x : Reg)
  /-- FX18 -/
  | ldStVx (x : Reg)
  /-- FX1E -/
  | addI (x : Reg)
  /-- FX29 -/
  | ldFont (x : Reg)
  /-- FX33 -/
  | ldBcd (x : Reg)
  /-- FX55 -/
  | storeRegs (x : Reg)
  /-- FX65 -/
  | loadRegs (x : Reg)
  deriving DecidableEq, Repr

end Sys2Proof
end

