-- ==== Sys2Proof/WellFormed.lean ====
section
/-! DEFINITION. Well-formedness. Every operand of `Instr` has exactly the values its opcode field has, and every one of them is
legal (30_encoding.md R93: "every value is a legal register, including 15"), so each TERM of `Instr` is well formed and the
check is on the 16-bit WORD: a word is well formed when it selects a row of 30_encoding.md R96 (`w & mask == match`), and is
an unknown opcode otherwise (R97). The rows below are R96's, apart from the decoder, so that the two can be compared. -/

namespace Sys2Proof

/-- One row of 30_encoding.md R96: the word `w` selects it when `w & mask` equals `bits` (the table's `match`). -/
structure OpcodeRow where
  bits : Word
  mask : Word
  deriving DecidableEq, Repr

/-- `w & mask == match` (30_encoding.md R96). -/
def OpcodeRow.selects (r : OpcodeRow) (w : Word) : Bool := w &&& r.mask == r.bits

/-- The row of each instruction, as 30_encoding.md R96 gives its `match` and `mask`. -/
def Instr.row : Instr → OpcodeRow
  | .cls => ⟨0x00E0#16, 0xFFFF#16⟩
  | .ret => ⟨0x00EE#16, 0xFFFF#16⟩
  | .jp _ => ⟨0x1000#16, 0xF000#16⟩
  | .call _ => ⟨0x2000#16, 0xF000#16⟩
  | .seImm _ _ => ⟨0x3000#16, 0xF000#16⟩
  | .sneImm _ _ => ⟨0x4000#16, 0xF000#16⟩
  | .seReg _ _ => ⟨0x5000#16, 0xF00F#16⟩
  | .ldImm _ _ => ⟨0x6000#16, 0xF000#16⟩
  | .addImm _ _ => ⟨0x7000#16, 0xF000#16⟩
  | .ldReg _ _ => ⟨0x8000#16, 0xF00F#16⟩
  | .orReg _ _ => ⟨0x8001#16, 0xF00F#16⟩
  | .andReg _ _ => ⟨0x8002#16, 0xF00F#16⟩
  | .xorReg _ _ => ⟨0x8003#16, 0xF00F#16⟩
  | .addReg _ _ => ⟨0x8004#16, 0xF00F#16⟩
  | .subReg _ _ => ⟨0x8005#16, 0xF00F#16⟩
  | .shr _ _ => ⟨0x8006#16, 0xF00F#16⟩
  | .subnReg _ _ => ⟨0x8007#16, 0xF00F#16⟩
  | .shl _ _ => ⟨0x800E#16, 0xF00F#16⟩
  | .sneReg _ _ => ⟨0x9000#16, 0xF00F#16⟩
  | .ldI _ => ⟨0xA000#16, 0xF000#16⟩
  | .jpV0 _ => ⟨0xB000#16, 0xF000#16⟩
  | .rnd _ _ => ⟨0xC000#16, 0xF000#16⟩
  | .drw _ _ _ => ⟨0xD000#16, 0xF000#16⟩
  | .skp _ => ⟨0xE09E#16, 0xF0FF#16⟩
  | .sknp _ => ⟨0xE0A1#16, 0xF0FF#16⟩
  | .ldVxDt _ => ⟨0xF007#16, 0xF0FF#16⟩
  | .ldVxKey _ => ⟨0xF00A#16, 0xF0FF#16⟩
  | .ldDtVx _ => ⟨0xF015#16, 0xF0FF#16⟩
  | .ldStVx _ => ⟨0xF018#16, 0xF0FF#16⟩
  | .addI _ => ⟨0xF01E#16, 0xF0FF#16⟩
  | .ldFont _ => ⟨0xF029#16, 0xF0FF#16⟩
  | .ldBcd _ => ⟨0xF033#16, 0xF0FF#16⟩
  | .storeRegs _ => ⟨0xF055#16, 0xF0FF#16⟩
  | .loadRegs _ => ⟨0xF065#16, 0xF0FF#16⟩

/-- The rows of families 0x0 to 0x7 (30_encoding.md R96, rows 1 to 9). -/
def rowsLow : List OpcodeRow :=
  [⟨0x00E0#16, 0xFFFF#16⟩, ⟨0x00EE#16, 0xFFFF#16⟩, ⟨0x1000#16, 0xF000#16⟩, ⟨0x2000#16, 0xF000#16⟩,
   ⟨0x3000#16, 0xF000#16⟩, ⟨0x4000#16, 0xF000#16⟩, ⟨0x5000#16, 0xF00F#16⟩, ⟨0x6000#16, 0xF000#16⟩,
   ⟨0x7000#16, 0xF000#16⟩]

/-- The rows of family 0x8 (R96, rows 10 to 18). -/
def rowsAlu : List OpcodeRow :=
  [⟨0x8000#16, 0xF00F#16⟩, ⟨0x8001#16, 0xF00F#16⟩, ⟨0x8002#16, 0xF00F#16⟩, ⟨0x8003#16, 0xF00F#16⟩,
   ⟨0x8004#16, 0xF00F#16⟩, ⟨0x8005#16, 0xF00F#16⟩, ⟨0x8006#16, 0xF00F#16⟩, ⟨0x8007#16, 0xF00F#16⟩,
   ⟨0x800E#16, 0xF00F#16⟩]

/-- The rows of families 0x9 to 0xE (R96, rows 19 to 25). -/
def rowsHigh : List OpcodeRow :=
  [⟨0x9000#16, 0xF00F#16⟩, ⟨0xA000#16, 0xF000#16⟩, ⟨0xB000#16, 0xF000#16⟩, ⟨0xC000#16, 0xF000#16⟩,
   ⟨0xD000#16, 0xF000#16⟩, ⟨0xE09E#16, 0xF0FF#16⟩, ⟨0xE0A1#16, 0xF0FF#16⟩]

/-- The rows of family 0xF (R96, rows 26 to 34). -/
def rowsMisc : List OpcodeRow :=
  [⟨0xF007#16, 0xF0FF#16⟩, ⟨0xF00A#16, 0xF0FF#16⟩, ⟨0xF015#16, 0xF0FF#16⟩, ⟨0xF018#16, 0xF0FF#16⟩,
   ⟨0xF01E#16, 0xF0FF#16⟩, ⟨0xF029#16, 0xF0FF#16⟩, ⟨0xF033#16, 0xF0FF#16⟩, ⟨0xF055#16, 0xF0FF#16⟩,
   ⟨0xF065#16, 0xF0FF#16⟩]

/-- All 34 rows of 30_encoding.md R96. -/
def opcodeRows : List OpcodeRow := rowsLow ++ rowsAlu ++ rowsHigh ++ rowsMisc

/-- The check: the word selects a row (30_encoding.md R96); a word that fails it is an unknown opcode (R97). -/
def wellFormedWord (w : Word) : Bool := opcodeRows.any (·.selects w)

end Sys2Proof
end

