-- ==== Sys2Proof/Decode.lean ====
section
/-! DEFINITION. The decoder (30_encoding.md R94), total on every word and every byte sequence and rejecting by name, and after
it the encoder, written from the bit layouts of R92 and R96. -/

namespace Sys2Proof

/-! ### Bytes and words -/

/-- Concatenation `hi ++ lo`: the first byte is the more significant one (20_memory.md R65, 30_encoding.md R90). -/
def wordOfBytes (hi lo : Byte) : Word := hi ++ lo

/-- The more significant byte of a word, the one at the lower address (30_encoding.md R90). -/
def highByte (w : Word) : Byte := w.extractLsb' 8 8

/-- The less significant byte of a word. -/
def lowByte (w : Word) : Byte := w.extractLsb' 0 8

/-! ### Fields (30_encoding.md R91) -/

/-- `op = w[15:12]`, the family. -/
def opField (w : Word) : Nibble := w.extractLsb' 12 4

/-- `X = w[11:8]`. -/
def xField (w : Word) : Reg := w.extractLsb' 8 4

/-- `Y = w[7:4]`. -/
def yField (w : Word) : Reg := w.extractLsb' 4 4

/-- `N = w[3:0]`. -/
def nField (w : Word) : Nibble := w.extractLsb' 0 4

/-- `NN = w[7:0]`. -/
def nnField (w : Word) : Byte := w.extractLsb' 0 8

/-- `NNN = w[11:0]`. -/
def nnnField (w : Word) : Addr := w.extractLsb' 0 12

/-! ### Decode (30_encoding.md R94) -/

/-- What decoding a word gives: one of the 34 instructions, or the verdict `unknown` with the word that no row matches
(30_encoding.md R94, R97). -/
inductive Verdict where
  | instr (i : Instr)
  | unknown (w : Word)
  deriving DecidableEq, Repr

/-- Family 0x0, matched on the whole word. -/
def decodeFamily0 (w : Word) : Verdict :=
  if w = 0x00E0#16 then .instr .cls
  else if w = 0x00EE#16 then .instr .ret
  else .unknown w

/-- Family 0x5: the low nibble must be 0 (conflict C5). -/
def decodeFamily5 (w : Word) : Verdict :=
  if nField w = 0x0#4 then .instr (.seReg (xField w) (yField w)) else .unknown w

/-- Family 0x8, dispatched on the low nibble. -/
def decodeFamily8 (w : Word) : Verdict :=
  let x := xField w
  let y := yField w
  match (nField w).toNat with
  | 0x0 => .instr (.ldReg x y)
  | 0x1 => .instr (.orReg x y)
  | 0x2 => .instr (.andReg x y)
  | 0x3 => .instr (.xorReg x y)
  | 0x4 => .instr (.addReg x y)
  | 0x5 => .instr (.subReg x y)
  | 0x6 => .instr (.shr x y)
  | 0x7 => .instr (.subnReg x y)
  | 0xE => .instr (.shl x y)
  | _ => .unknown w

/-- Family 0x9: the low nibble must be 0 (conflict C5). -/
def decodeFamily9 (w : Word) : Verdict :=
  if nField w = 0x0#4 then .instr (.sneReg (xField w) (yField w)) else .unknown w

/-- Family 0xE, dispatched on the low byte. -/
def decodeFamilyE (w : Word) : Verdict :=
  if nnField w = 0x9E#8 then .instr (.skp (xField w))
  else if nnField w = 0xA1#8 then .instr (.sknp (xField w))
  else .unknown w

/-- Family 0xF, dispatched on the low byte. -/
def decodeFamilyF (w : Word) : Verdict :=
  let x := xField w
  if nnField w = 0x07#8 then .instr (.ldVxDt x)
  else if nnField w = 0x0A#8 then .instr (.ldVxKey x)
  else if nnField w = 0x15#8 then .instr (.ldDtVx x)
  else if nnField w = 0x18#8 then .instr (.ldStVx x)
  else if nnField w = 0x1E#8 then .instr (.addI x)
  else if nnField w = 0x29#8 then .instr (.ldFont x)
  else if nnField w = 0x33#8 then .instr (.ldBcd x)
  else if nnField w = 0x55#8 then .instr (.storeRegs x)
  else if nnField w = 0x65#8 then .instr (.loadRegs x)
  else .unknown w

/-- The decode procedure of 30_encoding.md R94: total, and `unknown` for every word of R97. -/
def decode (w : Word) : Verdict :=
  match (opField w).toNat with
  | 0x0 => decodeFamily0 w
  | 0x1 => .instr (.jp (nnnField w))
  | 0x2 => .instr (.call (nnnField w))
  | 0x3 => .instr (.seImm (xField w) (nnField w))
  | 0x4 => .instr (.sneImm (xField w) (nnField w))
  | 0x5 => decodeFamily5 w
  | 0x6 => .instr (.ldImm (xField w) (nnField w))
  | 0x7 => .instr (.addImm (xField w) (nnField w))
  | 0x8 => decodeFamily8 w
  | 0x9 => decodeFamily9 w
  | 0xA => .instr (.ldI (nnnField w))
  | 0xB => .instr (.jpV0 (nnnField w))
  | 0xC => .instr (.rnd (xField w) (nnField w))
  | 0xD => .instr (.drw (xField w) (yField w) (nField w))
  | 0xE => decodeFamilyE w
  | _ => decodeFamilyF w

/-- What decoding a byte sequence gives: an instruction or an unknown word with the bytes after it, or fewer than the two bytes
that every instruction has (30_encoding.md R90). The machine's own fetch always has two bytes. -/
inductive BytesVerdict where
  | instr (i : Instr) (rest : List Byte)
  | unknown (w : Word) (rest : List Byte)
  | tooShort (given : List Byte)
  deriving DecidableEq, Repr

/-- Decode the first two bytes of a sequence, the first one the more significant (30_encoding.md R90, R94). -/
def decodeBytes : List Byte → BytesVerdict
  | hi :: lo :: rest =>
    match decode (wordOfBytes hi lo) with
    | .instr i => .instr i rest
    | .unknown w => .unknown w rest
  | short => .tooShort short

/-! ### Encode (30_encoding.md R92, R96) -/

/-- Format NNN. -/
def encodeNNN (op : Nibble) (nnn : Addr) : Word := op ++ nnn

/-- Format XNN. -/
def encodeXNN (op : Nibble) (x : Reg) (nn : Byte) : Word := op ++ (x ++ nn : BitVec 12)

/-- Formats XY (with a fixed sub-opcode `n`) and XYN. -/
def encodeXYN (op : Nibble) (x y : Reg) (n : Nibble) : Word := op ++ (x ++ (y ++ n : BitVec 8) : BitVec 12)

/-- The opcode word of an instruction. -/
def encode : Instr → Word
  | .cls => 0x00E0#16
  | .ret => 0x00EE#16
  | .jp nnn => encodeNNN 0x1#4 nnn
  | .call nnn => encodeNNN 0x2#4 nnn
  | .seImm x nn => encodeXNN 0x3#4 x nn
  | .sneImm x nn => encodeXNN 0x4#4 x nn
  | .seReg x y => encodeXYN 0x5#4 x y 0x0#4
  | .ldImm x nn => encodeXNN 0x6#4 x nn
  | .addImm x nn => encodeXNN 0x7#4 x nn
  | .ldReg x y => encodeXYN 0x8#4 x y 0x0#4
  | .orReg x y => encodeXYN 0x8#4 x y 0x1#4
  | .andReg x y => encodeXYN 0x8#4 x y 0x2#4
  | .xorReg x y => encodeXYN 0x8#4 x y 0x3#4
  | .addReg x y => encodeXYN 0x8#4 x y 0x4#4
  | .subReg x y => encodeXYN 0x8#4 x y 0x5#4
  | .shr x y => encodeXYN 0x8#4 x y 0x6#4
  | .subnReg x y => encodeXYN 0x8#4 x y 0x7#4
  | .shl x y => encodeXYN 0x8#4 x y 0xE#4
  | .sneReg x y => encodeXYN 0x9#4 x y 0x0#4
  | .ldI nnn => encodeNNN 0xA#4 nnn
  | .jpV0 nnn => encodeNNN 0xB#4 nnn
  | .rnd x nn => encodeXNN 0xC#4 x nn
  | .drw x y n => encodeXYN 0xD#4 x y n
  | .skp x => encodeXNN 0xE#4 x 0x9E#8
  | .sknp x => encodeXNN 0xE#4 x 0xA1#8
  | .ldVxDt x => encodeXNN 0xF#4 x 0x07#8
  | .ldVxKey x => encodeXNN 0xF#4 x 0x0A#8
  | .ldDtVx x => encodeXNN 0xF#4 x 0x15#8
  | .ldStVx x => encodeXNN 0xF#4 x 0x18#8
  | .addI x => encodeXNN 0xF#4 x 0x1E#8
  | .ldFont x => encodeXNN 0xF#4 x 0x29#8
  | .ldBcd x => encodeXNN 0xF#4 x 0x33#8
  | .storeRegs x => encodeXNN 0xF#4 x 0x55#8
  | .loadRegs x => encodeXNN 0xF#4 x 0x65#8

/-- The two bytes of an instruction in memory, the first at the lower address (30_encoding.md R90). -/
def encodeBytes (i : Instr) : List Byte := [highByte (encode i), lowByte (encode i)]

/-! ### The opcode table's numbering -/

/-- The 16-bit opcode word of an instruction whose bits are `w`, of which the opcode table gives the low `nbits`; the bits
above `nbits` are 0. -/
def tableWord (nbits w : Nat) : Word := BitVec.ofNat 16 (w % 2 ^ nbits)

/-- The instruction the decoder reads from the two bytes of an instruction numbered as the opcode table numbers it, none where
it refuses. -/
def decodeTableWord (nbits w : Nat) : Option Instr :=
  match decodeBytes [highByte (tableWord nbits w), lowByte (tableWord nbits w)] with
  | .instr i _ => some i
  | .unknown _ _ => none
  | .tooShort _ => none

end Sys2Proof
end

