-- ==== Sys2Proof/Config.lean ====
section
/-! DEFINITION. The parameters of 00_scope.md R5: those that are arguments of the model, as a type; the fixed sizes; and the one
free value, the random byte. This hardware's defaults of the arguments stand in Machine/Params.lean. -/

namespace Sys2Proof

/-- The parameters that are arguments of the model (00_scope.md R5; 93_implementation_defined.md U1 to U3). A state carries them
and nothing changes them, so a statement about every state holds for every value of each (log 34). -/
structure Params where
  /-- `FONT_BASE`, with `FONT_BASE + 80 <= 0x200` (20_memory.md R61, decision D2). -/
  fontBase : Fin 433
  /-- `FONT_DATA`, the 16 glyphs of 5 bytes in digit order (20_memory.md R62, R63, decision D3). -/
  fontData : Vector Byte 80
  /-- `FX1E_SETS_VF` (43_memory_index.md R191, decision D1). -/
  fx1eSetsVF : Bool
  deriving DecidableEq, Repr

end Sys2Proof

namespace Sys2Proof.Config

/-- `MEM_SIZE`: 4096 bytes, addresses 0x000 to 0xFFF (00_scope.md R5, 20_memory.md R60). -/
def memSize : Nat := 4096

/-- `STACK_DEPTH`: 16 return addresses (00_scope.md R5, 10_state.md R26). -/
def stackDepth : Nat := 16

/-- `PROGRAM_BASE`: 0x200, the entry point and the address of a program's first byte (00_scope.md R5,
70_reset_and_hazards.md R292). -/
def programBase : Nat := 0x200

/-- `PROGRAM_MAX_LEN`: 3584 bytes, the size of 0x200 to 0xFFF (00_scope.md R5, 70_reset_and_hazards.md R294). -/
def programMaxLen : Nat := 3584

/-- `RAND`, the random-byte provider: the byte that answers the n-th draw when none was supplied beforehand. A FREE VALUE:
it has no body, so nothing can be proved of it beyond its width (00_scope.md R5, 60_exceptions.md R262: "The core keeps no
generator state and places no requirement on the values"). Log 2. -/
opaque randomByte : Nat → Byte

end Sys2Proof.Config
end

