-- ==== Sys2Proof/Machine/Params.lean ====
section
/-! DEFINITION. The values of the parameters that 00_scope.md R5 gives as this hardware's defaults. Only `State.reset` uses them:
every meaning takes the parameters from the state it runs on. -/

namespace Sys2Proof.Machine

/-- `FONT_GLYPH_BYTES` = 5 (00_scope.md R5, 20_memory.md R62). -/
def fontGlyphBytes : Nat := 5

/-- Glyphs 0 to 7 of the default `FONT_DATA` (20_memory.md R63). PRESUMED: general knowledge, the spec's K1; log 5. -/
def fontLow : List Byte :=
  [0xF0, 0x90, 0x90, 0x90, 0xF0, 0x20, 0x60, 0x20, 0x20, 0x70,
   0xF0, 0x10, 0xF0, 0x80, 0xF0, 0xF0, 0x10, 0xF0, 0x10, 0xF0,
   0x90, 0x90, 0xF0, 0x10, 0x10, 0xF0, 0x80, 0xF0, 0x10, 0xF0,
   0xF0, 0x80, 0xF0, 0x90, 0xF0, 0xF0, 0x10, 0x20, 0x40, 0x40]

/-- Glyphs 8 to F of the default `FONT_DATA` (20_memory.md R63). PRESUMED: general knowledge, the spec's K1; log 5. -/
def fontHigh : List Byte :=
  [0xF0, 0x90, 0xF0, 0x90, 0xF0, 0xF0, 0x90, 0xF0, 0x10, 0xF0,
   0xF0, 0x90, 0xF0, 0x90, 0x90, 0xE0, 0x90, 0xE0, 0x90, 0xE0,
   0xF0, 0x80, 0x80, 0x80, 0xF0, 0xE0, 0x90, 0x90, 0x90, 0xE0,
   0xF0, 0x80, 0xF0, 0x80, 0xF0, 0xF0, 0x80, 0xF0, 0x80, 0x80]

/-- The default of `FONT_DATA` (20_memory.md R62, R63). -/
def defaultFont : Vector Byte 80 := ⟨(fontLow ++ fontHigh).toArray, rfl⟩

/-- The defaults: `FONT_BASE` = 0x000 (20_memory.md R61, decision D2; DESIGN CHOICE of the spec, log 4), the customary font
(decision D3; PRESUMED, log 5), and an FX1E that leaves VF (43_memory_index.md R191, decision D1; DESIGN CHOICE of the spec,
log 3). -/
def defaultParams : Params where
  fontBase := 0x000
  fontData := defaultFont
  fx1eSetsVF := false

end Sys2Proof.Machine
end

