-- ==== Sys2Proof/Machine/Operands.lean ====
section
/-! DEFINITION. The operand forms: literals and their zero extension (30_encoding.md R93), the effective address (43_memory_index.md
R194), the glyph address (R192), the decimal digits (R193), the key number (46_input.md R234) and the pixel coordinates
(44_graphics.md R211). Register operands are read by `State.readV` in Machine/Ops.lean. -/

namespace Sys2Proof.Machine

/-- `zext_16(NNN)` (30_encoding.md R93). -/
def zextAddr (nnn : Addr) : Word := nnn.setWidth 16

/-- `zext_16(VX)` (00_scope.md section 5). -/
def zextByte (b : Byte) : Word := b.setWidth 16

/-- A value reduced modulo 4096, `w & 0xFFF` (20_memory.md R70). -/
def mask12 (w : Word) : Addr := w.setWidth 12

/-- The effective address `ea(k) = (I + k) & 0xFFF` (43_memory_index.md R194, 20_memory.md R70; decision D35, log 32). -/
def ea (i : Word) (k : Nat) : Addr := mask12 (i + BitVec.ofNat 16 k)

/-- The low nibble of a byte, `VX & 0xF`. -/
def lowNibble (b : Byte) : Nibble := b.setWidth 4

/-- The key that EX9E and EXA1 select: the low nibble of VX (46_input.md R234, decision D17; DESIGN CHOICE, log 17). -/
def keyNumber (b : Byte) : Key := lowNibble b

/-- `FONT_BASE + 5 * (VX & 0xF)`, the address of a digit's glyph (43_memory_index.md R192). -/
def glyphAddress (p : Params) (b : Byte) : Word := BitVec.ofNat 16 (p.fontBase.val + fontGlyphBytes * (lowNibble b).toNat)

/-- `v / 100` (43_memory_index.md R193). -/
def hundredsDigit (b : Byte) : Byte := BitVec.ofNat 8 (b.toNat / 100)

/-- `(v / 10) mod 10` (43_memory_index.md R193). -/
def tensDigit (b : Byte) : Byte := BitVec.ofNat 8 (b.toNat / 10 % 10)

/-- `v mod 10` (43_memory_index.md R193). -/
def onesDigit (b : Byte) : Byte := BitVec.ofNat 8 (b.toNat % 10)

/-- The display column of a sprite's c-th pixel, `(x0 + c) mod 64` (44_graphics.md R211). -/
def spriteColumn (x0 : Byte) (c : Nat) : Fin 64 := Fin.ofNat 64 (x0.toNat + c)

/-- The display row of a sprite's r-th row, `(y0 + r) mod 32` (44_graphics.md R211). -/
def spriteRow (y0 : Byte) (r : Nat) : Fin 32 := Fin.ofNat 32 (y0.toNat + r)

/-- Pixel c of a sprite row, counted from the left: bit `7 - c` (44_graphics.md R211, decision D15; PRESUMED, log 15). -/
def spriteBit (b : Byte) (c : Nat) : Bool := b.getLsbD (7 - c)

end Sys2Proof.Machine
end

