-- ==== Sys2Proof/Machine/Memory.lean ====
section
/-! DEFINITION. Memory (20_memory.md): 4096 bytes as the list of those that differ from the reset contents, in one canonical
form, with the read and the write of one byte (R68: every access is one byte wide). -/

namespace Sys2Proof.Machine

/-- The bytes that differ from what an unlisted address reads as, by strictly rising address. -/
abbrev Memory := List Host.Cell

/-- What an unlisted address reads as: the reset contents of 10_state.md R36, `FONT_DATA` at `FONT_BASE` and 0x00 elsewhere
(20_memory.md R61 to R63; the zeros are decision D5, DESIGN CHOICE, log 6). -/
def background (p : Params) (a : Nat) : Byte :=
  if h : p.fontBase.val ≤ a ∧ a < p.fontBase.val + 80 then p.fontData[a - p.fontBase.val]'(by omega) else 0x00#8

/-- The byte at address `a` of a memory. -/
def Memory.get (p : Params) : Memory → Nat → Byte
  | [], a => background p a
  | (b, v) :: rest, a => if b = a then v else Memory.get p rest a

/-- The memory with byte `v` at address `a`. Writing what an unlisted address reads as removes the entry, so that equal
contents are equal lists. -/
def Memory.put (p : Params) : Memory → Nat → Byte → Memory
  | [], a, v => if v = background p a then [] else [(a, v)]
  | (b, w) :: rest, a, v =>
    if a < b then (if v = background p a then (b, w) :: rest else (a, v) :: (b, w) :: rest)
    else if a = b then (if v = background p a then rest else (a, v) :: rest)
    else (b, w) :: Memory.put p rest a v

/-- Every listed address is at least `low`, the addresses rise strictly and stay below 0x1000, and no entry equals what an
unlisted address reads as. -/
def Memory.wfFrom (p : Params) : Nat → Memory → Bool
  | _, [] => true
  | low, (a, v) :: rest =>
    decide (low ≤ a) && decide (a < Config.memSize) && decide (v ≠ background p a) && Memory.wfFrom p (a + 1) rest

/-- The canonical form of a memory. -/
def Memory.wf (p : Params) (m : Memory) : Bool := Memory.wfFrom p 0 m

/-- `MemRead(addr, 1)` (00_scope.md section 5, 20_memory.md R68). The address type holds only addresses that exist. -/
def Memory.read (p : Params) (m : Memory) (a : Addr) : Byte := m.get p a.toNat

/-- `MemWrite(addr, 1, v)` (00_scope.md section 5, 20_memory.md R68). Any address is writable, the font's too (R64, decision
D4; DESIGN CHOICE, log 9). -/
def Memory.write (p : Params) (m : Memory) (a : Addr) (v : Byte) : Memory := m.put p a.toNat v

end Sys2Proof.Machine
end

