-- ==== Sys2Proof/Machine/State.lean ====
section
/-! DEFINITION. The state of the core (10_state.md R20) as plain data, the reasons a step can stop, and the state after reset
(R36). -/

namespace Sys2Proof.Machine

/-- The record of a fatal condition, with its payload (60_exceptions.md R240). `pc` is the address of the faulting instruction,
or the out-of-range program counter itself. The payloads are decision D11 (DESIGN CHOICE of the spec, log 31). -/
inductive FaultRecord where
  /-- Code 1: the opcode word selects no instruction (R241). -/
  | unknownOpcode (opcode pc : Word)
  /-- Code 2: a call with 16 return addresses on the stack (R242). -/
  | stackOverflow (opcode pc : Word)
  /-- Code 3: a return with an empty stack (R243). -/
  | stackUnderflow (opcode pc : Word)
  /-- Code 6: `PC > 0x0FFF` at a fetch (R244). -/
  | pcOutOfRange (pc : Word)
  deriving DecidableEq, Repr

/-- The cause code of a fatal condition (60_exceptions.md R240). -/
def FaultRecord.code : FaultRecord → Nat
  | .unknownOpcode _ _ => 1
  | .stackOverflow _ _ => 2
  | .stackUnderflow _ _ => 3
  | .pcOutOfRange _ => 6

/-- Why a step stops with no next state. -/
inductive Fault where
  /-- Raised by `step` when the fault latch is set: the cycle changes nothing and returns the latched record again
  (40_cycle.md R121, 60_exceptions.md R248). Safe: no state follows, as the spec says. -/
  | latched (r : FaultRecord)
  /-- Raised by 00EE when SP is above 16, a value the spec excludes ("Its legal values are 0 to 16", 10_state.md R25) and no
  run reaches (R38); there is no stack entry to pop. Safe: the model stops. Log 21. -/
  | illegalStackPointer (sp : Byte)
  deriving DecidableEq, Repr

/-- Why a step has no meaning. -/
inductive Refusal where
  /-- Raised by `exec` for an instruction not modelled yet, by its mnemonic. Safe: the model stops. No instruction of this
  model is refused. -/
  | notModelled (mnemonic : String)
  deriving DecidableEq, Repr

/-- The complete state of the core (10_state.md R20, R34), and at the end three fields of the model's own: the parameters, which
nothing changes (00_scope.md R5; log 34), and the random-byte provider's answers (60_exceptions.md R262; log 2). -/
structure State where
  /-- V0 to VF (R21, R22). -/
  v : Vector Byte 16
  /-- The index register I (R23). -/
  i : Word
  /-- The program counter (R24). -/
  pc : Word
  /-- The stack pointer: the number of live return addresses (R25). -/
  sp : Byte
  /-- The call stack (R26). -/
  stack : Vector Word 16
  /-- The delay timer (R27). -/
  dt : Byte
  /-- The sound timer (R28). -/
  st : Byte
  /-- Memory, as the bytes that differ from the reset contents (R29). -/
  mem : Memory
  /-- The display buffer: row y, and in it bit x for column x (R30). -/
  fb : Vector (BitVec 64) 32
  /-- The key levels, true for down (R31). -/
  keys : Vector Bool 16
  /-- The key levels of the previous completed cycle (R32). -/
  prevKeys : Vector Bool 16
  /-- The fault latch (R33). -/
  fault : Option FaultRecord
  /-- The model's own: the parameters of the hardware, constant through every run. -/
  params : Params
  /-- The model's own: bytes the random-byte provider has ready, the next one first. -/
  supplied : List Byte
  /-- The model's own: how many bytes CXNN has drawn. -/
  draws : Nat
  deriving DecidableEq, Repr

/-- The state after reset of the hardware with the parameters `p` (10_state.md R36, 70_reset_and_hazards.md R290). Memory lists
nothing: it reads as its reset contents.
The timers, the keys and the latch are decisions of the spec (logs 7, 8, 1); `supplied` and `draws` are the model's (log 2). -/
def State.resetWith (p : Params) : State where
  v := Vector.replicate 16 0x00#8
  i := 0x0000#16
  pc := 0x0200#16
  sp := 0#8
  stack := Vector.replicate 16 0x0000#16
  dt := 0x00#8
  st := 0x00#8
  mem := []
  fb := Vector.replicate 32 0#64
  keys := Vector.replicate 16 false
  prevKeys := Vector.replicate 16 false
  fault := none
  params := p
  supplied := []
  draws := 0

/-- The state after reset with the default parameters (00_scope.md R5; logs 3, 4, 5). -/
def State.reset : State := State.resetWith defaultParams

/-- The answer of one step of this machine. -/
abbrev Outcome := Host.Outcome State Fault Refusal

end Sys2Proof.Machine
end

