-- ==== Sys2Proof/Machine/Display.lean ====
section
/-! DEFINITION. The display buffer (10_state.md R30): one pixel read, one pixel inverted, and the XOR-blit of a sprite row
(44_graphics.md R211). -/

namespace Sys2Proof.Machine

/-- `fb[0..31][0..63]`: 32 rows, each with bit x for column x (10_state.md R30). -/
abbrev Display := Vector (BitVec 64) 32

/-- All pixels off (44_graphics.md R210). -/
def Display.clear : Display := Vector.replicate 32 0#64

/-- `fb[y][x]` (00_scope.md section 5). -/
def Display.pixel (fb : Display) (y : Fin 32) (x : Fin 64) : Bool := (fb[y.val]'y.isLt).getLsbD x.val

/-- `fb[y][x] <- fb[y][x] ^ 1` (44_graphics.md R211). -/
def Display.toggle (fb : Display) (y : Fin 32) (x : Fin 64) : Display :=
  fb.set y.val ((fb[y.val]'y.isLt) ^^^ BitVec.twoPow 64 x.val) y.isLt

/-- A display in the middle of a draw, with `hit` of 44_graphics.md R211: whether a pixel has gone from on to off. -/
structure Canvas where
  fb : Display
  hit : Bool
  deriving DecidableEq, Repr

/-- One sprite bit that is 1: note a collision, then invert the pixel (44_graphics.md R211). -/
def Canvas.blit (d : Canvas) (y : Fin 32) (x : Fin 64) : Canvas :=
  { fb := d.fb.toggle y x, hit := d.hit || d.fb.pixel y x }

/-- The first `n` pixels of a sprite row `b` whose left edge is at column `x0`, on display row `y` (44_graphics.md R211, the
loop over c). -/
def Canvas.drawBits (b x0 : Byte) (y : Fin 32) : Nat → Canvas → Canvas
  | 0, d => d
  | c + 1, d =>
    if spriteBit b c then (Canvas.drawBits b x0 y c d).blit y (spriteColumn x0 c) else Canvas.drawBits b x0 y c d

end Sys2Proof.Machine
end

