-- ==== Sys2Proof/Machine/Flags.lean ====
section
/-! DEFINITION. The flag values that go to VF, exactly 0x00 or 0x01 and computed from the operands before the instruction
(41_arithmetic.md R140, 43_memory_index.md R191, 44_graphics.md R211). -/

namespace Sys2Proof.Machine

/-- A flag as the byte written to VF: "the value exactly 0x00 or 0x01" (41_arithmetic.md R140). -/
def flagByte (c : Bool) : Byte := if c then 0x01#8 else 0x00#8

/-- 8XY4: carry out of bit 7, `a + b > 255` (41_arithmetic.md R147). -/
def carryFlag (a b : Byte) : Byte := flagByte (decide (255 < a.toNat + b.toNat))

/-- No borrow of `a - b`, `a >= b`: 8XY5 with (VX, VY), 8XY7 with (VY, VX) (41_arithmetic.md R148, R150). -/
def noBorrowFlag (a b : Byte) : Byte := flagByte (decide (b.toNat ≤ a.toNat))

/-- 8XY6: bit 0, shifted out on the right (41_arithmetic.md R149). -/
def shiftedOutRight (a : Byte) : Byte := flagByte (a.getLsbD 0)

/-- 8XYE: bit 7, shifted out on the left (41_arithmetic.md R151). -/
def shiftedOutLeft (a : Byte) : Byte := flagByte (a.getLsbD 7)

/-- FX1E with `FX1E_SETS_VF`: `I + VX > 0xFFF` (43_memory_index.md R191). -/
def indexOverflowFlag (i : Word) (b : Byte) : Byte := flagByte (decide (0xFFF < i.toNat + b.toNat))

/-- DXYN: whether a pixel went from on to off (44_graphics.md R211). -/
def collisionFlag (hit : Bool) : Byte := flagByte hit

end Sys2Proof.Machine
end

