-- ==== Sys2Proof/Machine/Ops.lean ====
section
/-! DEFINITION. The named operations over the state: reading and writing registers, memory, the stack and the display, the skip,
the draw of a random byte, the key edge, and the one operation that takes a fatal condition (60_exceptions.md R247).

Where a meaning runs, `s.pc` is already `pc0 + 2` (40_cycle.md R124); `State.rewind` undoes that. -/

namespace Sys2Proof.Machine

/-! ### Registers -/

/-- VF, register 15 (10_state.md R22). -/
def vf : Reg := 0xF#4

/-- `V[x]` (00_scope.md section 5). -/
def State.readV (s : State) (x : Reg) : Byte := s.v[x.toNat]'x.isLt

/-- `V[x] <- b`. No register is hardwired (10_state.md R21). -/
def State.setV (s : State) (x : Reg) (b : Byte) : State := { s with v := s.v.set x.toNat b x.isLt }

/-- `I <- w`. -/
def State.setI (s : State) (w : Word) : State := { s with i := w }

/-- `PC <- w`. -/
def State.setPc (s : State) (w : Word) : State := { s with pc := w }

/-- `DT <- b`. -/
def State.setDt (s : State) (b : Byte) : State := { s with dt := b }

/-- `ST <- b`. -/
def State.setSt (s : State) (b : Byte) : State := { s with st := b }

/-- The display buffer replaced. -/
def State.setFb (s : State) (fb : Display) : State := { s with fb := fb }

/-- A result and its flag: the result goes to VX and then the flag to VF, so that with X = 15 the flag remains (40_cycle.md R129;
the order is decision D12 where the source does not force it; DESIGN CHOICE, log 12). -/
def State.setResultAndFlag (s : State) (x : Reg) (result flag : Byte) : State := (s.setV x result).setV vf flag

/-! ### The program counter -/

/-- Fetch "advances PC by 2 before execution" (40_cycle.md R124): 16 bits, not masked. -/
def State.advance (s : State) : State := s.setPc (s.pc + 2#16)

/-- Undo the advance: `PC <- pc0` (40_cycle.md R126, 46_input.md R232). -/
def State.rewind (s : State) : State := s.setPc (s.pc - 2#16)

/-- The skip: `PC <- PC + 2` on the advanced program counter when the condition holds (42_control_flow.md R177). -/
def State.skipIf (s : State) (c : Bool) : State := if c then s.setPc (s.pc + 2#16) else s

/-! ### Memory -/

/-- `MemRead(a, 1)`. -/
def State.memRead (s : State) (a : Addr) : Byte := s.mem.read s.params a

/-- `MemWrite(a, 1, b)`. -/
def State.memWrite (s : State) (a : Addr) (b : Byte) : State := { s with mem := s.mem.write s.params a b }

/-- The first `n` registers V0, V1, ... stored from `I` upwards (43_memory_index.md R195). -/
def State.storeFirst (s : State) : Nat → State
  | 0 => s
  | k + 1 => (s.storeFirst k).memWrite (ea s.i k) (s.readV (BitVec.ofNat 4 k))

/-- The first `n` registers V0, V1, ... loaded from `I` upwards (43_memory_index.md R196). -/
def State.loadFirst (s : State) : Nat → State
  | 0 => s
  | k + 1 => (s.loadFirst k).setV (BitVec.ofNat 4 k) (s.memRead (ea s.i k))

/-! ### The call stack (10_state.md R26) -/

/-- `stack[SP] <- w; SP <- SP + 1`, for an SP below 16. -/
def State.push (s : State) (w : Word) : State :=
  { s with stack := s.stack.setIfInBounds s.sp.toNat w, sp := s.sp + 1#8 }

/-- `stack[SP - 1]`, none where no such entry exists. -/
def State.top (s : State) : Option Word := s.stack[s.sp.toNat - 1]?

/-- `SP <- SP - 1`; the entry keeps its value (10_state.md R26). -/
def State.drop (s : State) : State := { s with sp := s.sp - 1#8 }

/-! ### The display -/

/-- `fb[y][x]`. -/
def State.pixel (s : State) (y : Fin 32) (x : Fin 64) : Bool := Display.pixel s.fb y x

/-- The first `n` rows of the sprite at `I` drawn at (x0, y0), with the collision so far (44_graphics.md R211, the loop over r). -/
def State.drawRows (s : State) (x0 y0 : Byte) : Nat → Canvas
  | 0 => { fb := s.fb, hit := false }
  | r + 1 => (s.drawRows x0 y0 r).drawBits (s.memRead (ea s.i r)) x0 (spriteRow y0 r) 8

/-! ### Keys (46_input.md) -/

/-- `keys[k]`, the level of a key in the cycle's sample (40_cycle.md R122). -/
def State.keyDown (s : State) (k : Key) : Bool := s.keys[k.toNat]'k.isLt

/-- `prev_keys[k]`, the level of a key in the previous completed cycle. -/
def State.keyWasDown (s : State) (k : Key) : Bool := s.prevKeys[k.toNat]'k.isLt

/-- `prev_keys[k] == 0 and k[k] == 1`: the key went down since the last cycle (46_input.md R232). -/
def State.keyEdge (s : State) (k : Key) : Bool := !s.keyWasDown k && s.keyDown k

/-- `min(E)`: the lowest key with an edge, none when there is no edge (46_input.md R232, decision D18; DESIGN CHOICE, log 18). -/
def State.firstEdge (s : State) : Option Nat := (List.range 16).find? fun k => s.keyEdge (BitVec.ofNat 4 k)

/-! ### The random byte (60_exceptions.md R262; a free value, log 2) -/

/-- The byte that answers this draw: the next supplied one, or the free value when none was supplied. -/
def State.drawnByte (s : State) : Byte :=
  match s.supplied with
  | b :: _ => b
  | [] => Config.randomByte s.draws

/-- One byte has been drawn: "each execution of CXNN takes one 8-bit value". -/
def State.afterDraw (s : State) : State := { s with supplied := s.supplied.tail, draws := s.draws + 1 }

/-! ### Taking a fatal condition -/

/-- TAKE A FATAL CONDITION: the state is the one before the cycle with one change, `fault <- record` (60_exceptions.md R247,
40_cycle.md R126). `before` is that state. Nothing is saved elsewhere, no mode changes, control goes nowhere; there is no return
(R249). That the stop is latched is decision D10 (DESIGN CHOICE of the spec, log 1). -/
def takeFault (before : State) (r : FaultRecord) : Outcome := .next { before with fault := some r }

/-- `raise` inside an instruction that was fetched from `pc0`: the advance of PC is not kept (40_cycle.md R126). -/
def raiseInExecute (s : State) (record : Word → FaultRecord) : Outcome := takeFault s.rewind (record s.rewind.pc)

end Sys2Proof.Machine
end

