-- ==== Sys2Proof/Machine/Cycle.lean ====
section
/-! DEFINITION. The parts of the cycle around an instruction's meaning (40_cycle.md R120 to R127): the latch, the range check, the
fetch, the decode, and the commit of the key sample. Machine/Step.lean puts them around `exec`. -/

namespace Sys2Proof.Machine

/-- The opcode word at PC: the byte at PC is the more significant one, and the second address is masked (40_cycle.md R123,
20_memory.md R65, R71; the wrap at 0xFFF is decision D9, DESIGN CHOICE, log 11). -/
def State.fetchWord (s : State) : Word := wordOfBytes (s.memRead (ea s.pc 0)) (s.memRead (ea s.pc 1))

/-- What the cycle does before it executes anything: it ends, or it executes an instruction on the state with PC advanced. -/
inductive FrontEnd where
  | ended (o : Outcome)
  | execute (i : Instr) (advanced : State)

/-- The steps of `run_cycle` up to decode, in the order of 60_exceptions.md R250: a latched fault is returned again (40_cycle.md
R121), a PC above 0xFFF faults (R123), then fetch, the advance of PC (R124) and decode, where an unknown word faults (R125). -/
def State.frontEnd (s : State) : FrontEnd :=
  match s.fault with
  | some r => .ended (.fault (.latched r))
  | none =>
    if 0x0FFF < s.pc.toNat then .ended (takeFault s (.pcOutOfRange s.pc))
    else
      match decode s.fetchWord with
      | .instr i => .execute i s.advance
      | .unknown w => .ended (takeFault s (.unknownOpcode w s.pc))

/-- The end of the cycle that began in `before`: `prev_keys <- k` when it completed, and nothing when it took a fatal condition
(40_cycle.md R127). -/
def commit (before : State) : Outcome → Outcome
  | .next t =>
    match t.fault with
    | none => .next { t with prevKeys := before.keys }
    | some _ => .next t
  | .fault r => .fault r
  | .refused r => .refused r

/-- The state with the two bytes of the word `w` where the next fetch reads them. -/
def State.placeWord (s : State) (w : Word) : State :=
  (s.memWrite (ea s.pc 0) (highByte w)).memWrite (ea s.pc 1) (lowByte w)

/-- The state made ready to fetch: the latch clear and PC in range, at the entry point if it was not. It is `s` itself wherever
`s` can fetch. -/
def State.readyToFetch (s : State) : State :=
  { s with fault := none, pc := if s.pc.toNat ≤ 0x0FFF then s.pc else 0x0200#16 }

end Sys2Proof.Machine
end

