-- ==== Sys2Proof/Machine/Arithmetic.lean ====
section
/-! DEFINITION. Arithmetic, logic, shifts, load immediate and random (41_arithmetic.md). In every meaning `s.pc` is already
`pc0 + 2` and is not touched; none of them raises a fault. -/

namespace Sys2Proof.Machine

/-- 6XNN (R141). -/
def execLdImm (x : Reg) (nn : Byte) (s : State) : Outcome := .next (s.setV x nn)

/-- 7XNN: wraps, no flag (R142). -/
def execAddImm (x : Reg) (nn : Byte) (s : State) : Outcome := .next (s.setV x (s.readV x + nn))

/-- 8XY0 (R143). -/
def execLdReg (x y : Reg) (s : State) : Outcome := .next (s.setV x (s.readV y))

/-- 8XY1: VF is not written (R144; decision D13, DESIGN CHOICE, log 13). -/
def execOrReg (x y : Reg) (s : State) : Outcome := .next (s.setV x (s.readV x ||| s.readV y))

/-- 8XY2: VF is not written (R145; log 13). -/
def execAndReg (x y : Reg) (s : State) : Outcome := .next (s.setV x (s.readV x &&& s.readV y))

/-- 8XY3: VF is not written (R146; log 13). -/
def execXorReg (x y : Reg) (s : State) : Outcome := .next (s.setV x (s.readV x ^^^ s.readV y))

/-- 8XY4 (R147). -/
def execAddReg (x y : Reg) (s : State) : Outcome :=
  .next (s.setResultAndFlag x (s.readV x + s.readV y) (carryFlag (s.readV x) (s.readV y)))

/-- 8XY5 (R148). -/
def execSubReg (x y : Reg) (s : State) : Outcome :=
  .next (s.setResultAndFlag x (s.readV x - s.readV y) (noBorrowFlag (s.readV x) (s.readV y)))

/-- 8XY6: the field `y` is ignored (R149, 30_encoding.md R95). -/
def execShr (x _y : Reg) (s : State) : Outcome :=
  .next (s.setResultAndFlag x (s.readV x >>> 1) (shiftedOutRight (s.readV x)))

/-- 8XY7 (R150). -/
def execSubnReg (x y : Reg) (s : State) : Outcome :=
  .next (s.setResultAndFlag x (s.readV y - s.readV x) (noBorrowFlag (s.readV y) (s.readV x)))

/-- 8XYE: the field `y` is ignored (R151, 30_encoding.md R95). -/
def execShl (x _y : Reg) (s : State) : Outcome :=
  .next (s.setResultAndFlag x (s.readV x <<< 1) (shiftedOutLeft (s.readV x)))

/-- CXNN: one byte is drawn per execution (R152, 60_exceptions.md R262). The byte is a free value, log 2. -/
def execRnd (x : Reg) (nn : Byte) (s : State) : Outcome := .next (s.afterDraw.setV x (s.drawnByte &&& nn))

end Sys2Proof.Machine
end

