-- ==== Sys2Proof/Machine/Control.lean ====
section
/-! DEFINITION. Jumps, call, return and the skips on registers (42_control_flow.md). In every meaning `s.pc` is already `pc0 + 2`.
No target is checked here: only the next fetch checks PC (R179, 40_cycle.md R123; log 10). -/

namespace Sys2Proof.Machine

/-- 1NNN (R171). -/
def execJp (nnn : Addr) (s : State) : Outcome := .next (s.setPc (zextAddr nnn))

/-- BNNN: the exact 16-bit sum, not reduced modulo 4096 (R178; decision D8, DESIGN CHOICE, log 10). -/
def execJpV0 (nnn : Addr) (s : State) : Outcome := .next (s.setPc (zextAddr nnn + zextByte (s.readV 0x0#4)))

/-- 2NNN: `StackOverflow` when 16 return addresses are on the stack, else push the advanced PC and jump (R172). -/
def execCall (nnn : Addr) (s : State) : Outcome :=
  if 16 ≤ s.sp.toNat then raiseInExecute s (.stackOverflow (encode (.call nnn)))
  else .next ((s.push s.pc).setPc (zextAddr nnn))

/-- 00EE: `StackUnderflow` on an empty stack, else pop into PC, not masked (R170). An SP above 16 has no entry to pop and stops
the model (log 21). -/
def execRet (s : State) : Outcome :=
  if s.sp.toNat = 0 then raiseInExecute s (.stackUnderflow (encode .ret))
  else
    match s.top with
    | some w => .next (s.drop.setPc w)
    | none => .fault (.illegalStackPointer s.sp)

/-- 3XNN (R173, R177). -/
def execSeImm (x : Reg) (nn : Byte) (s : State) : Outcome := .next (s.skipIf (s.readV x == nn))

/-- 4XNN (R174, R177). -/
def execSneImm (x : Reg) (nn : Byte) (s : State) : Outcome := .next (s.skipIf (s.readV x != nn))

/-- 5XY0 (R175, R177). -/
def execSeReg (x y : Reg) (s : State) : Outcome := .next (s.skipIf (s.readV x == s.readV y))

/-- 9XY0 (R176, R177). -/
def execSneReg (x y : Reg) (s : State) : Outcome := .next (s.skipIf (s.readV x != s.readV y))

end Sys2Proof.Machine
end

