-- ==== Sys2Proof/Machine/Graphics.lean ====
section
/-! DEFINITION. Clear and draw (44_graphics.md). `s.pc` is already `pc0 + 2` and is not touched; neither raises a fault. -/

namespace Sys2Proof.Machine

/-- 00E0 (R210). -/
def execCls (s : State) : Outcome := .next (s.setFb Display.clear)

/-- DXYN: XOR-draw `n` rows from memory at I, at the coordinates VX and VY read before VF is written; VF is always written, also
when `n` is 0 (R211; the bit order is PRESUMED, log 15). -/
def execDrw (x y : Reg) (n : Nibble) (s : State) : Outcome :=
  let drawn := s.drawRows (s.readV x) (s.readV y) n.toNat
  .next ((s.setFb drawn.fb).setV vf (collisionFlag drawn.hit))

end Sys2Proof.Machine
end

