-- ==== Sys2Proof/Machine/IndexMemory.lean ====
section
/-! DEFINITION. The index register and the memory instructions (43_memory_index.md). `s.pc` is already `pc0 + 2` and is not
touched; every data address wraps, so none of them raises a fault (20_memory.md R70). `I` is unchanged by FX33, FX55 and FX65
(R194; decision D14, DESIGN CHOICE, log 14). -/

namespace Sys2Proof.Machine

/-- ANNN (R190). -/
def execLdI (nnn : Addr) (s : State) : Outcome := .next (s.setI (zextAddr nnn))

/-- `I <- (I + VX) mod 4096`, and with `setsVF` the overflow flag afterwards: both readings of FX1E that R191 writes out. -/
def State.addIndex (s : State) (setsVF : Bool) (x : Reg) : State :=
  if setsVF then
    (s.setI (zextAddr (mask12 (s.i + zextByte (s.readV x))))).setV vf (indexOverflowFlag s.i (s.readV x))
  else s.setI (zextAddr (mask12 (s.i + zextByte (s.readV x))))

/-- FX1E, by the parameter `FX1E_SETS_VF` (R191; its default, false, is decision D1, log 3). -/
def execAddI (x : Reg) (s : State) : Outcome := .next (s.addIndex s.params.fx1eSetsVF x)

/-- FX29: computes an address and reads no memory (R192). -/
def execLdFont (x : Reg) (s : State) : Outcome := .next (s.setI (glyphAddress s.params (s.readV x)))

/-- FX33: hundreds, tens and ones at I, I + 1, I + 2 (R193). -/
def execLdBcd (x : Reg) (s : State) : Outcome :=
  .next (((s.memWrite (ea s.i 0) (hundredsDigit (s.readV x))).memWrite (ea s.i 1) (tensDigit (s.readV x))).memWrite
    (ea s.i 2) (onesDigit (s.readV x)))

/-- FX55: V0 to VX stored from I upwards (R195). -/
def execStoreRegs (x : Reg) (s : State) : Outcome := .next (s.storeFirst (x.toNat + 1))

/-- FX65: V0 to VX loaded from I upwards (R196). -/
def execLoadRegs (x : Reg) (s : State) : Outcome := .next (s.loadFirst (x.toNat + 1))

end Sys2Proof.Machine
end

