-- ==== Sys2Proof/Machine/Input.lean ====
section
/-! DEFINITION. The key instructions (46_input.md). `s.pc` is already `pc0 + 2`; `s.keys` is the cycle's one sample (40_cycle.md
R122). None raises a fault. -/

namespace Sys2Proof.Machine

/-- EX9E: the level of key `VX & 0xF` (R230, R234; log 17). -/
def execSkp (x : Reg) (s : State) : Outcome := .next (s.skipIf (s.keyDown (keyNumber (s.readV x))))

/-- EXA1 (R231, R234; log 17). -/
def execSknp (x : Reg) (s : State) : Outcome := .next (s.skipIf (!s.keyDown (keyNumber (s.readV x))))

/-- FX0A: without a key-down edge PC goes back to `pc0`, so that the next cycle runs the instruction again; with one, VX is the
lowest key that went down (R232, R233; decisions D18 and D34, logs 18 and 25). -/
def execLdVxKey (x : Reg) (s : State) : Outcome :=
  match s.firstEdge with
  | none => .next s.rewind
  | some k => .next (s.setV x (BitVec.ofNat 8 k))

end Sys2Proof.Machine
end

