-- ==== Sys2Proof/Machine/Timers.lean ====
section
/-! DEFINITION. The timer instructions (45_timers.md). `s.pc` is already `pc0 + 2` and is not touched; none raises a fault. The
countdown is `tickTimers` in Machine/Boundary.lean. -/

namespace Sys2Proof.Machine

/-- FX07 (R220). -/
def execLdVxDt (x : Reg) (s : State) : Outcome := .next (s.setV x s.dt)

/-- FX15 (R221). -/
def execLdDtVx (x : Reg) (s : State) : Outcome := .next (s.setDt (s.readV x))

/-- FX18 (R222). -/
def execLdStVx (x : Reg) (s : State) : Outcome := .next (s.setSt (s.readV x))

end Sys2Proof.Machine
end

