-- ==== Sys2Proof/Machine/Step.lean ====
section
/-! DEFINITION. One step is one `run_cycle()` (40_cycle.md R120). -/

namespace Sys2Proof.Machine

/-- `run_cycle()`: latch, range check, fetch, advance, decode, execute, commit (40_cycle.md R120 to R127), as one atomic
transition. -/
def step (s : State) : Host.Outcome State Fault Refusal :=
  match s.frontEnd with
  | .ended o => o
  | .execute i advanced => commit s (exec i advanced)

/-- `s` with the instruction whose bits are `w`, numbered as the opcode table numbers them, stored where `step` fetches its next
instruction. A state that cannot fetch (a latched fault, a PC above 0xFFF) is first made ready to; nothing else changes.
Log 23. -/
def State.withFetchWord (s : State) (nbits w : Nat) : State := s.readyToFetch.placeWord (tableWord nbits w)

end Sys2Proof.Machine
end

