-- ==== Sys2Proof/Machine/Boundary.lean ====
section
/-! DEFINITION. The boundary operations other than `run_cycle` (00_scope.md R7): the timer tick, the key event, the program
load, the display snapshot and the sound bit, and the random-byte provider. Each is one atomic function of the state (R8). -/

namespace Sys2Proof.Machine

/-- A host operation turned away with nothing changed (60_exceptions.md R240, R245, R246). Neither is latched (decision D33;
DESIGN CHOICE of the spec, log 20). -/
inductive Rejection where
  /-- Code 4: an image longer than 3584 bytes (R245). -/
  | programTooLarge (length : Nat)
  /-- Code 5: a key index outside 0 to 15 (R246). -/
  | invalidKeyIndex (index : Int)
  deriving DecidableEq, Repr

/-- The cause code of a rejection (60_exceptions.md R240). -/
def Rejection.code : Rejection → Nat
  | .programTooLarge _ => 4
  | .invalidKeyIndex _ => 5

/-- One timer's tick: "decrement ... by 1 if non-zero" (60_exceptions.md R255). -/
def countDown (b : Byte) : Byte := if b = 0x00#8 then b else b - 0x01#8

/-- `tick_timers()` (60_exceptions.md R255). It acts in every state, parked or faulted (R256; decision D28, log 29). -/
def State.tickTimers (s : State) : State := { s with dt := countDown s.dt, st := countDown s.st }

/-- `set_key(index, is_down)` (60_exceptions.md R258): writes a level, never `prev_keys`; accepted in every state (decision D26,
log 27). -/
def State.setKey (s : State) (index : Int) (isDown : Bool) : State × Option Rejection :=
  if index < 0 ∨ 15 < index then (s, some (.invalidKeyIndex index))
  else ({ s with keys := s.keys.setIfInBounds index.toNat isDown }, none)

/-- Reset of a running machine: every piece of the spec's state at its reset value (70_reset_and_hazards.md R290). The parameters
and the provider's bytes are no state of the core (10_state.md R35), so they go on as they were (logs 34, 2). -/
def State.restart (s : State) : State := { State.resetWith s.params with supplied := s.supplied, draws := s.draws }

/-- The image copied upwards from address `a` (70_reset_and_hazards.md R293, R295). -/
def copyImage : Nat → List Byte → State → State
  | _, [], s => s
  | a, b :: rest, s => copyImage (a + 1) rest (s.memWrite (BitVec.ofNat 12 a) b)

/-- `load_program(bytes)`: length check, then reset of everything, then the copy to 0x200 (70_reset_and_hazards.md R293, R294;
conflicts C1 and C2, decision D24, log 20). -/
def State.loadProgram (s : State) (bytes : List Byte) : State × Option Rejection :=
  if Config.programMaxLen < bytes.length then (s, some (.programTooLarge bytes.length))
  else (copyImage Config.programBase bytes s.restart, none)

/-- `display_snapshot()`: 2048 bits, pixel (x, y) at element `64 * y + x` (60_exceptions.md R260; decision D32, log 28). -/
def State.displaySnapshot (s : State) : Vector Bool 2048 :=
  Vector.ofFn fun k => s.pixel (Fin.ofNat 32 (k.val / 64)) (Fin.ofNat 64 (k.val % 64))

/-- `should_play_sound()`: `ST != 0` (60_exceptions.md R261). -/
def State.shouldPlaySound (s : State) : Bool := s.st != 0x00#8

/-- The provider makes one more byte ready, to answer after those that already are (60_exceptions.md R262; log 2). -/
def State.supplyByte (s : State) (b : Byte) : State := { s with supplied := s.supplied ++ [b] }

end Sys2Proof.Machine
end

