-- ==== Sys2Proof/Machine/Events.lean ====
section
/-! DEFINITION. The operations of 00_scope.md R7 as events, each one atomic transition with its report. A run is any sequence of
them (R8, decision D21). -/

namespace Sys2Proof.Machine

/-- The operations through which the surroundings reach the core (00_scope.md R7), and the provider's answer (R262). -/
inductive Event where
  | runCycle
  | tickTimers
  | setKey (index : Int) (isDown : Bool)
  | loadProgram (bytes : List Byte)
  | displaySnapshot
  | shouldPlaySound
  | supplyByte (b : Byte)
  deriving DecidableEq, Repr

/-- What an operation reports. -/
inductive Report where
  /-- Nothing to report. -/
  | done
  /-- `run_cycle`: `Ok` (none) or `Fault(record)` (40_cycle.md R131). -/
  | cycle (fault : Option FaultRecord)
  /-- The model stops: a state the spec excludes, or an instruction without a meaning. The state stays. -/
  | stopped
  /-- `set_key`, `load_program`: `Ok` (none) or the rejection. -/
  | accepted (rejection : Option Rejection)
  /-- `display_snapshot`. -/
  | picture (bits : Vector Bool 2048)
  /-- `should_play_sound`. -/
  | sound (on : Bool)
  deriving DecidableEq, Repr

/-- `run_cycle()` with its result (40_cycle.md R120, R131): a cycle that took a fatal condition reports the record it latched, a
cycle on a latched machine reports the same record and changes nothing (R121). -/
def runCycle (s : State) : State × Report :=
  match step s with
  | .next t => (t, .cycle t.fault)
  | .fault (.latched r) => (s, .cycle (some r))
  | .fault (.illegalStackPointer _) => (s, .stopped)
  | .refused _ => (s, .stopped)

/-- One operation on the state, with its report. -/
def applyEvent (e : Event) (s : State) : State × Report :=
  match e with
  | .runCycle => runCycle s
  | .tickTimers => (s.tickTimers, .done)
  | .setKey index isDown => ((s.setKey index isDown).1, .accepted (s.setKey index isDown).2)
  | .loadProgram bytes => ((s.loadProgram bytes).1, .accepted (s.loadProgram bytes).2)
  | .displaySnapshot => (s, .picture s.displaySnapshot)
  | .shouldPlaySound => (s, .sound s.shouldPlaySound)
  | .supplyByte b => (s.supplyByte b, .done)

/-- A run: operations in order, from a state. -/
def applyEvents (es : List Event) (s : State) : State := es.foldl (fun t e => (applyEvent e t).1) s

end Sys2Proof.Machine
end

