-- ==== Sys2Proof/Safety.lean ====
section
/-! DEFINITION. The terms in which claims are made: the invariants of every reachable state (10_state.md R38), what a latched
record says of the state, which pieces of state an instruction may write (R37), the program counter after a cycle (40_cycle.md
R128), and the pixels a sprite covers (44_graphics.md R211). -/

namespace Sys2Proof.Machine

/-! ### Outcomes -/

/-- The outcome is a next state, and that state has the property. -/
def Completes (o : Outcome) (P : State → Prop) : Prop := ∃ t, o = .next t ∧ P t

/-! ### Encodings -/

/-- The instruction's word is `n`, and the word `n` decodes to the instruction. -/
def EncodedAs (i : Instr) (n : Nat) : Prop := (encode i).toNat = n ∧ decode (BitVec.ofNat 16 n) = .instr i

/-! ### Pieces of state and frames (10_state.md R20, R37) -/

/-- The pieces of state; `params` is the parameters, which no operation may change, and `provider` the model's two fields for the
random byte. -/
inductive Piece where
  | v | i | pc | sp | stack | dt | st | mem | fb | keys | prevKeys | fault | params | provider
  deriving DecidableEq, Repr

/-- The piece reads the same in both states: memory at every address, the registers at every number. -/
def Piece.Same : Piece → State → State → Prop
  | .v, s, t => ∀ r, t.readV r = s.readV r
  | .i, s, t => t.i = s.i
  | .pc, s, t => t.pc = s.pc
  | .sp, s, t => t.sp = s.sp
  | .stack, s, t => t.stack = s.stack
  | .dt, s, t => t.dt = s.dt
  | .st, s, t => t.st = s.st
  | .mem, s, t => ∀ a, t.memRead a = s.memRead a
  | .fb, s, t => t.fb = s.fb
  | .keys, s, t => t.keys = s.keys
  | .prevKeys, s, t => t.prevKeys = s.prevKeys
  | .fault, s, t => t.fault = s.fault
  | .params, s, t => t.params = s.params
  | .provider, s, t => t.supplied = s.supplied ∧ t.draws = s.draws

/-- Every piece outside the list reads the same in `t` as in `s`. -/
def OnlyChanges (ps : List Piece) (s t : State) : Prop := ∀ p, p ∉ ps → p.Same s t

/-- Completes with `b` in VX and nothing else changed. -/
def SetsRegister (o : Outcome) (s : State) (x : Reg) (b : Byte) : Prop :=
  Completes o fun t => t.readV x = b ∧ (∀ r, r ≠ x → t.readV r = s.readV r) ∧ OnlyChanges [.v] s t

/-- Completes with the flag in VF, the result in VX unless VX is VF, and nothing else changed (40_cycle.md R129). -/
def SetsRegisterAndFlag (o : Outcome) (s : State) (x : Reg) (result flag : Byte) : Prop :=
  Completes o fun t => t.readV vf = flag ∧ (x ≠ vf → t.readV x = result) ∧
    (∀ r, r ≠ x → r ≠ vf → t.readV r = s.readV r) ∧ OnlyChanges [.v] s t

/-- Completes with PC two further when the condition holds and as it was otherwise, and nothing else changed (42_control_flow.md
R177). -/
def SkipsWhen (o : Outcome) (s : State) (c : Prop) : Prop :=
  Completes o fun t => (c → t.pc = s.pc + 2#16) ∧ (¬ c → t.pc = s.pc) ∧ OnlyChanges [.pc] s t

/-- The pieces an instruction may write (10_state.md R37, with PC where the instruction redirects it and the latch where it can
take a fatal condition). -/
def piecesWritten (p : Params) : Instr → List Piece
  | .cls => [.fb]
  | .ret => [.pc, .sp, .fault]
  | .jp _ => [.pc]
  | .call _ => [.pc, .sp, .stack, .fault]
  | .seImm _ _ => [.pc]
  | .sneImm _ _ => [.pc]
  | .seReg _ _ => [.pc]
  | .ldImm _ _ => [.v]
  | .addImm _ _ => [.v]
  | .ldReg _ _ => [.v]
  | .orReg _ _ => [.v]
  | .andReg _ _ => [.v]
  | .xorReg _ _ => [.v]
  | .addReg _ _ => [.v]
  | .subReg _ _ => [.v]
  | .shr _ _ => [.v]
  | .subnReg _ _ => [.v]
  | .shl _ _ => [.v]
  | .sneReg _ _ => [.pc]
  | .ldI _ => [.i]
  | .jpV0 _ => [.pc]
  | .rnd _ _ => [.v, .provider]
  | .drw _ _ _ => [.v, .fb]
  | .skp _ => [.pc]
  | .sknp _ => [.pc]
  | .ldVxDt _ => [.v]
  | .ldVxKey _ => [.v, .pc]
  | .ldDtVx _ => [.dt]
  | .ldStVx _ => [.st]
  | .addI _ => if p.fx1eSetsVF then [.i, .v] else [.i]
  | .ldFont _ => [.i]
  | .ldBcd _ => [.mem]
  | .storeRegs _ => [.mem]
  | .loadRegs _ => [.v]

/-- The V registers an instruction may write (10_state.md R22, R37). -/
def registersWritten (p : Params) : Instr → Reg → Prop
  | .ldImm x _, r => r = x
  | .addImm x _, r => r = x
  | .ldReg x _, r => r = x
  | .orReg x _, r => r = x
  | .andReg x _, r => r = x
  | .xorReg x _, r => r = x
  | .addReg x _, r => r = x ∨ r = vf
  | .subReg x _, r => r = x ∨ r = vf
  | .shr x _, r => r = x ∨ r = vf
  | .subnReg x _, r => r = x ∨ r = vf
  | .shl x _, r => r = x ∨ r = vf
  | .rnd x _, r => r = x
  | .drw _ _ _, r => r = vf
  | .ldVxDt x, r => r = x
  | .ldVxKey x, r => r = x
  | .addI _, r => p.fx1eSetsVF = true ∧ r = vf
  | .loadRegs x, r => r.toNat ≤ x.toNat
  | .cls, _ => False
  | .ret, _ => False
  | .jp _, _ => False
  | .call _, _ => False
  | .seImm _ _, _ => False
  | .sneImm _ _, _ => False
  | .seReg _ _, _ => False
  | .sneReg _ _, _ => False
  | .ldI _, _ => False
  | .jpV0 _, _ => False
  | .skp _, _ => False
  | .sknp _, _ => False
  | .ldDtVx _, _ => False
  | .ldStVx _, _ => False
  | .ldFont _, _ => False
  | .ldBcd _, _ => False
  | .storeRegs _, _ => False

/-! ### The program counter after a cycle (40_cycle.md R128) -/

/-- `pc0 + 4` if the condition holds, else `pc0 + 2`. -/
def skipTarget (pc0 : Word) (c : Bool) : Word := if c then pc0 + 4#16 else pc0 + 2#16

/-- The value of PC after a completed cycle that began in `s` and ran the instruction, by the table of 40_cycle.md R128. -/
def pcAfterCycle (s : State) : Instr → Word
  | .ret => (s.stack[s.sp.toNat - 1]?).getD s.pc
  | .jp nnn => BitVec.ofNat 16 nnn.toNat
  | .call nnn => BitVec.ofNat 16 nnn.toNat
  | .jpV0 nnn => BitVec.ofNat 16 (nnn.toNat + (s.readV 0x0#4).toNat)
  | .seImm x nn => skipTarget s.pc (decide (s.readV x = nn))
  | .sneImm x nn => skipTarget s.pc (decide (s.readV x ≠ nn))
  | .seReg x y => skipTarget s.pc (decide (s.readV x = s.readV y))
  | .sneReg x y => skipTarget s.pc (decide (s.readV x ≠ s.readV y))
  | .skp x => skipTarget s.pc (s.keyDown (BitVec.ofNat 4 (s.readV x).toNat))
  | .sknp x => skipTarget s.pc (!s.keyDown (BitVec.ofNat 4 (s.readV x).toNat))
  | .ldVxKey _ => if ∃ k : Key, s.keyWasDown k = false ∧ s.keyDown k = true then s.pc + 2#16 else s.pc
  | .cls => s.pc + 2#16
  | .ldImm _ _ => s.pc + 2#16
  | .addImm _ _ => s.pc + 2#16
  | .ldReg _ _ => s.pc + 2#16
  | .orReg _ _ => s.pc + 2#16
  | .andReg _ _ => s.pc + 2#16
  | .xorReg _ _ => s.pc + 2#16
  | .addReg _ _ => s.pc + 2#16
  | .subReg _ _ => s.pc + 2#16
  | .shr _ _ => s.pc + 2#16
  | .subnReg _ _ => s.pc + 2#16
  | .shl _ _ => s.pc + 2#16
  | .ldI _ => s.pc + 2#16
  | .rnd _ _ => s.pc + 2#16
  | .drw _ _ _ => s.pc + 2#16
  | .ldVxDt _ => s.pc + 2#16
  | .ldDtVx _ => s.pc + 2#16
  | .ldStVx _ => s.pc + 2#16
  | .addI _ => s.pc + 2#16
  | .ldFont _ => s.pc + 2#16
  | .ldBcd _ => s.pc + 2#16
  | .storeRegs _ => s.pc + 2#16
  | .loadRegs _ => s.pc + 2#16

/-! ### Invariants (10_state.md R38) -/

/-- The invariants of every reachable state that 10_state.md R38 lists, with the canonical form of memory (the model's own). -/
structure State.Inv (s : State) : Prop where
  mem_wf : s.mem.wf s.params = true
  index_le : s.i.toNat ≤ 0x0FFF
  sp_le : s.sp.toNat ≤ 16
  pc_le : s.pc.toNat ≤ 0x10FE
  live_le : ∀ k : Fin 16, k.val < s.sp.toNat → (s.stack[k.val]'k.isLt).toNat ≤ 0x1001

/-- A latched record tells the truth about the state it is latched in (60_exceptions.md R240, R247): the word and the address are
those at PC, and the condition it names is the case. -/
def State.LatchTrue (s : State) : Prop :=
  match s.fault with
  | none => True
  | some (.pcOutOfRange p) => p = s.pc ∧ 0x0FFF < p.toNat
  | some (.unknownOpcode w p) =>
    p = s.pc ∧ p.toNat ≤ 0x0FFF ∧ w = s.fetchWord ∧ wellFormedWord w = false
  | some (.stackOverflow w p) =>
    p = s.pc ∧ p.toNat ≤ 0x0FFF ∧ w = s.fetchWord ∧ 16 ≤ s.sp.toNat ∧ opField w = 0x2#4
  | some (.stackUnderflow w p) =>
    p = s.pc ∧ p.toNat ≤ 0x0FFF ∧ w = s.fetchWord ∧ s.sp.toNat = 0 ∧ w = 0x00EE#16

/-- The states the core can be in: reset, with any parameters, and every operation of 00_scope.md R7 from there (10_state.md R38). -/
inductive Reachable : State → Prop where
  | reset (p : Params) : Reachable (State.resetWith p)
  | event {s : State} (e : Event) : Reachable s → Reachable (applyEvent e s).1

/-! ### Sprites (44_graphics.md R211) -/

/-- The sprite of `n` rows at `I`, drawn at (x0, y0), has a 1 bit over the pixel in row `row` and column `col`. -/
def State.SpriteCovers (s : State) (x0 y0 : Byte) (n : Nat) (row : Fin 32) (col : Fin 64) : Prop :=
  ∃ r c : Nat, r < n ∧ c < 8 ∧ row.val = (y0.toNat + r) % 32 ∧ col.val = (x0.toNat + c) % 64 ∧
    (s.memRead (ea s.i r)).getLsbD (7 - c) = true

end Sys2Proof.Machine
end

