-- ==== Sys2Proof/Certificates/Slice0/Obligations.lean ====
section
/-! DEFINITION. The statements about the model, each from the rules of spec/ named in its docstring. Where one rests on a choice
(the spec's own decision, or the model's), the docstring names it and the log entry. -/

open Sys2Proof Sys2Proof.Machine

/-! ### Encoding -/

/-- A few words written out from the patterns of 30_encoding.md R92 and R96, and words of R97, decode as those rules say.
That 0x5121 is unknown is the spec's resolution of conflict C5, a choice, log 24. -/
def Obligations.SampleWordsDecode : Prop :=
  decode 0x00E0#16 = .instr .cls ∧ decode 0x00EE#16 = .instr .ret ∧ decode 0x1234#16 = .instr (.jp 0x234#12) ∧
  decode 0x3412#16 = .instr (.seImm 0x4#4 0x12#8) ∧ decode 0x5230#16 = .instr (.seReg 0x2#4 0x3#4) ∧
  decode 0x82F6#16 = .instr (.shr 0x2#4 0xF#4) ∧ decode 0xA300#16 = .instr (.ldI 0x300#12) ∧
  decode 0xD012#16 = .instr (.drw 0x0#4 0x1#4 0x2#4) ∧ decode 0xE59E#16 = .instr (.skp 0x5#4) ∧
  decode 0xF30A#16 = .instr (.ldVxKey 0x3#4) ∧ decode 0xF255#16 = .instr (.storeRegs 0x2#4) ∧
  decode 0x0000#16 = .unknown 0x0000#16 ∧ decode 0x5121#16 = .unknown 0x5121#16 ∧
  decode 0x8128#16 = .unknown 0x8128#16 ∧ decode 0xE19F#16 = .unknown 0xE19F#16 ∧ decode 0xFFFF#16 = .unknown 0xFFFF#16

/-- Every instruction, with every operand, is what decoding its word gives, and decoding its two bytes at the head of any byte
sequence gives it and leaves the rest. -/
def Obligations.DecodeOfEncodeIsIdentity : Prop :=
  (∀ i : Instr, decode (encode i) = .instr i) ∧
  (∀ (i : Instr) (rest : List Byte), decodeBytes (encodeBytes i ++ rest) = .instr i rest)

/-- Each word has one meaning: the word of the instruction that a word decodes to is that word, so no bit of a word is dropped. -/
def Obligations.EncodeOfDecodeIsIdentity : Prop :=
  ∀ (w : Word) (i : Instr), decode w = .instr i → encode i = w

/-- The decode procedure (30_encoding.md R94) and the table of masks (R96, R97) agree: a decoded word selects its instruction's
row and no other row, and a word is `unknown` exactly when it selects no row. That a nonzero low nibble makes a word of
families 5 and 9 unknown is conflict C5, log 24. -/
def Obligations.DecodeAgreesWithOpcodeTable : Prop :=
  (∀ (w : Word) (i : Instr), decode w = .instr i → i.row ∈ opcodeRows ∧ ∀ row ∈ opcodeRows, row.selects w = true ↔ row = i.row) ∧
  (∀ w : Word, decode w = .unknown w ↔ wellFormedWord w = false) ∧
  (∀ w u : Word, decode w = .unknown u → u = w)

/-! ### The cycle -/

/-- The byte at PC is the high byte of the opcode word, the byte at `(PC + 1) & 0xFFF` the low byte (20_memory.md section 4). The
wrap of the second address at 0xFFF is the spec's decision D9, log 11. -/
def Obligations.FetchIsBigEndian : Prop :=
  ∀ s : State, s.fetchWord.toNat =
    256 * (s.mem.get s.params (s.pc.toNat % 4096)).toNat + (s.mem.get s.params ((s.pc.toNat + 1) % 4096)).toNat

/-- A step runs the decoded instruction: with no fault latched, PC in range and the word at PC decoding to `i`, the step is `exec
i` on the state whose PC alone is two further, and a completed cycle then records the key sample, a cycle that took a fatal
condition does not (40_cycle.md section 1). When the sample is recorded is the spec's decision D18, log 18, and that a fatal
condition is a next state is decision D10 and the model's choice, log 1. -/
def Obligations.StepExecutesDecodedInstruction : Prop :=
  ∀ (s : State) (i : Instr), s.fault = none → s.pc.toNat ≤ 0x0FFF → decode s.fetchWord = .instr i →
    s.advance = { s with pc := s.pc + 2#16 } ∧
    (∀ t, exec i s.advance = .next t → t.fault = none → step s = .next { t with prevKeys := s.keys }) ∧
    (∀ t r, exec i s.advance = .next t → t.fault = some r → step s = .next t) ∧
    (∀ r, exec i s.advance = .fault r → step s = .fault r)

/-- The word that `withFetchWord` places is the word the next step fetches, and only the two bytes at PC, the latch and an
out-of-range PC are touched. Model's own operation, log 23. -/
def Obligations.PlacedWordIsFetched : Prop :=
  ∀ (s : State) (w : Word), s.mem.wf s.params = true →
    (s.withFetchWord 16 w.toNat).fetchWord = w ∧
    (s.withFetchWord 16 w.toNat).fault = none ∧ (s.withFetchWord 16 w.toNat).pc.toNat ≤ 0x0FFF ∧
    (s.pc.toNat ≤ 0x0FFF → OnlyChanges [.mem, .fault] s (s.withFetchWord 16 w.toNat) ∧
      ∀ a : Addr, a ≠ ea s.pc 0 → a ≠ ea s.pc 1 → (s.withFetchWord 16 w.toNat).memRead a = s.memRead a)

/-- With the latch set the cycle changes nothing and returns the latched record again (40_cycle.md section 1; the latch is the
spec's decision D10, log 1). -/
def Obligations.LatchedCycleReturnsSameRecord : Prop :=
  ∀ (s : State) (r : FaultRecord), s.fault = some r →
    step s = .fault (.latched r) ∧ runCycle s = (s, .cycle (some r))

/-- A PC above 0x0FFF at the start of a cycle takes `PcOutOfRange` with that PC, whatever memory holds, and changes nothing else
(40_cycle.md section 2; decisions D8 and D10, logs 10 and 1). -/
def Obligations.PcOutOfRangeIsTaken : Prop :=
  ∀ s : State, s.fault = none → 0x0FFF < s.pc.toNat →
    step s = .next { s with fault := some (.pcOutOfRange s.pc) }

/-- A fetched word that selects no row of the opcode table takes `UnknownOpcode` with the word and PC, and changes nothing else
(40_cycle.md section 3, 30_encoding.md section 6; the latch is decision D10, log 1, the payload D11, log 31, and the nonzero low
nibble in families 5 and 9 conflict C5, log 24). -/
def Obligations.UnknownOpcodeIsTaken : Prop :=
  ∀ s : State, s.fault = none → s.pc.toNat ≤ 0x0FFF → wellFormedWord s.fetchWord = false →
    step s = .next { s with fault := some (.unknownOpcode s.fetchWord s.pc) }

/-- A call with 16 return addresses on the stack takes `StackOverflow` and a return with none takes `StackUnderflow`, each with
the word fetched and the PC it was fetched from, and changes nothing else (60_exceptions.md section 1; the payloads are decision
D11 and the latch D10, logs 31 and 1). -/
def Obligations.StackFaultsAreTaken : Prop :=
  ∀ s : State, s.fault = none → s.pc.toNat ≤ 0x0FFF →
    (∀ nnn : Addr, decode s.fetchWord = .instr (.call nnn) → 16 ≤ s.sp.toNat →
      step s = .next { s with fault := some (.stackOverflow s.fetchWord s.pc) }) ∧
    (decode s.fetchWord = .instr .ret → s.sp.toNat = 0 →
      step s = .next { s with fault := some (.stackUnderflow 0x00EE#16 s.pc) })

/-- Fatal conditions are precise: a step that ends with the latch set began with it clear, and its state is the one before with
the record latched and nothing else changed (60_exceptions.md section 2; decision D10, log 1). -/
def Obligations.FatalConditionsArePrecise : Prop :=
  ∀ (s t : State) (r : FaultRecord), step s = .next t → t.fault = some r →
    s.fault = none ∧ t = { s with fault := some r }

/-- No legal unlatched state stops the machine: with no fault latched and SP at most 16, every step answers a next state, whatever
the bytes at PC are (30_encoding.md section 4, 60_exceptions.md section 2). That a cycle which takes a fatal condition answers a
next state, with the record latched, is the model's choice on decision D10, log 1. -/
def Obligations.UnlatchedStepAlwaysAnswers : Prop :=
  ∀ s : State, s.fault = none → s.sp.toNat ≤ 16 → ∃ t, step s = .next t

/-- A completed cycle ends with `prev_keys` equal to the key sample, and no cycle changes the keys or the parameters
(40_cycle.md section 4; decisions D18 and D10, logs 18 and 1; the parameters, log 34). -/
def Obligations.CompletedCycleRecordsKeySample : Prop :=
  ∀ s t : State, step s = .next t → t.keys = s.keys ∧ t.params = s.params ∧
    (t.fault = none → t.prevKeys = s.keys) ∧ (t.fault ≠ none → t.prevKeys = s.prevKeys)

/-- The value of PC after a cycle that fetched from `pc0`, for every instruction, and unchanged after a faulting cycle
(40_cycle.md section 5). That BNNN's sum is not masked, which key EX9E and EXA1 select, and the park of FX0A are the spec's
decisions D8, D17 and D34, logs 10, 17 and 25, and that a faulting cycle leaves PC is decision D10, log 1. -/
def Obligations.ProgramCounterAfterCycle : Prop :=
  ∀ s t : State, step s = .next t →
    (t.fault ≠ none → t.pc = s.pc) ∧
    (∀ i : Instr, decode s.fetchWord = .instr i → t.fault = none → t.pc = pcAfterCycle s i)

/-! ### Frames of every instruction -/

/-- Whatever an instruction does, it writes only the pieces that 10_state.md section 8 lists for it (and PC where it redirects it,
and the latch where it can take a fatal condition): every other register, the memory at every address, the display, the timers,
the keys, the parameters and the provider's bytes read as before. That FX33, FX55, FX65 and
DXYN leave I is the spec's decision D14, log 14, what a fatal condition leaves is decision D10, log 1, and FX1E may write VF only
where its parameter says so, logs 3 and 34. -/
def Obligations.InstructionWritesOnlyItsPieces : Prop :=
  ∀ (i : Instr) (s t : State), exec i s = .next t → OnlyChanges (piecesWritten s.params i) s t

/-- An instruction writes only its destination registers, and VF only where it is a destination or the flag output (10_state.md
sections 2 and 8). That 8XY1, 8XY2 and 8XY3 leave VF is the spec's decision D13, log 13; FX1E writes it only where the parameter
of decision D1 says so, log 3. -/
def Obligations.InstructionWritesOnlyItsRegisters : Prop :=
  ∀ (i : Instr) (s t : State) (r : Reg), exec i s = .next t → ¬ registersWritten s.params i r → t.readV r = s.readV r

/-- No instruction reads ST (10_state.md section 4): changing ST before an instruction changes nothing after it but ST, and not
even that where the instruction is FX18. -/
def Obligations.SoundTimerIsNeverRead : Prop :=
  ∀ (i : Instr) (s t : State) (b : Byte), exec i s = .next t →
    ((∀ x, i ≠ .ldStVx x) → exec i (s.setSt b) = .next (t.setSt b)) ∧
    (∀ x, i = .ldStVx x → exec i (s.setSt b) = .next t)

/-! ### Arithmetic, logic, random (41_arithmetic.md)

From here on a statement about an instruction's result also says which word the instruction is (`EncodedAs`; 30_encoding.md R92,
R96). -/

/-- 41_arithmetic.md R141, R142, R143: 6XNN loads NN, 7XNN adds it modulo 256 with no flag, 8XY0 copies VY; nothing else
changes, and PC stays at the next instruction. -/
def Obligations.LoadAddAndMoveResults : Prop :=
  ∀ (s : State) (x y : Reg) (nn : Byte),
    EncodedAs (.ldImm x nn) (0x6000 + 0x100 * x.toNat + nn.toNat) ∧
    EncodedAs (.addImm x nn) (0x7000 + 0x100 * x.toNat + nn.toNat) ∧
    EncodedAs (.ldReg x y) (0x8000 + 0x100 * x.toNat + 0x10 * y.toNat) ∧
    SetsRegister (exec (.ldImm x nn) s) s x nn ∧
    SetsRegister (exec (.addImm x nn) s) s x (BitVec.ofNat 8 (((s.readV x).toNat + nn.toNat) % 256)) ∧
    SetsRegister (exec (.ldReg x y) s) s x (s.readV y)

/-- 8XY1, 8XY2, 8XY3 are bitwise on 8 bits and write VX alone (41_arithmetic.md section 3). That VF is not written is the spec's
decision D13, log 13. -/
def Obligations.LogicResults : Prop :=
  ∀ (s : State) (x y : Reg),
    EncodedAs (.orReg x y) (0x8001 + 0x100 * x.toNat + 0x10 * y.toNat) ∧
    EncodedAs (.andReg x y) (0x8002 + 0x100 * x.toNat + 0x10 * y.toNat) ∧
    EncodedAs (.xorReg x y) (0x8003 + 0x100 * x.toNat + 0x10 * y.toNat) ∧
    (Completes (exec (.orReg x y) s) fun t =>
      (∀ k, (t.readV x).getLsbD k = ((s.readV x).getLsbD k || (s.readV y).getLsbD k)) ∧
      (∀ r, r ≠ x → t.readV r = s.readV r) ∧ OnlyChanges [.v] s t) ∧
    (Completes (exec (.andReg x y) s) fun t =>
      (∀ k, (t.readV x).getLsbD k = ((s.readV x).getLsbD k && (s.readV y).getLsbD k)) ∧
      (∀ r, r ≠ x → t.readV r = s.readV r) ∧ OnlyChanges [.v] s t) ∧
    (Completes (exec (.xorReg x y) s) fun t =>
      (∀ k, (t.readV x).getLsbD k = ((s.readV x).getLsbD k ^^ (s.readV y).getLsbD k)) ∧
      (∀ r, r ≠ x → t.readV r = s.readV r) ∧ OnlyChanges [.v] s t)

/-- 41_arithmetic.md R147: 8XY4 leaves the sum modulo 256 in VX and then 1 in VF if the sum exceeds 255, else 0; with X = 15 the
carry remains. -/
def Obligations.AddWithCarryResult : Prop :=
  ∀ (s : State) (x y : Reg),
    EncodedAs (.addReg x y) (0x8004 + 0x100 * x.toNat + 0x10 * y.toNat) ∧
    SetsRegisterAndFlag (exec (.addReg x y) s) s x
      (BitVec.ofNat 8 (((s.readV x).toNat + (s.readV y).toNat) % 256))
      (if 255 < (s.readV x).toNat + (s.readV y).toNat then 1#8 else 0#8)

/-- 41_arithmetic.md R148: 8XY5 leaves `(VX - VY) mod 256` in VX and then 1 in VF if `VX >= VY`, else 0; with X = 15 the flag
remains. -/
def Obligations.SubtractResult : Prop :=
  ∀ (s : State) (x y : Reg),
    EncodedAs (.subReg x y) (0x8005 + 0x100 * x.toNat + 0x10 * y.toNat) ∧
    SetsRegisterAndFlag (exec (.subReg x y) s) s x
      (BitVec.ofNat 8 (((s.readV x).toNat + 256 - (s.readV y).toNat) % 256))
      (if (s.readV y).toNat ≤ (s.readV x).toNat then 1#8 else 0#8)

/-- 8XY7, 8XY6 and 8XYE: `(VY - VX) mod 256` with the no-borrow flag, half of VX with its old bit 0, twice VX modulo 256 with its
old bit 7, whatever Y is for the shifts (41_arithmetic.md sections 4 and 5). That the flag remains when X = 15 is the spec's
decision D12, log 12. -/
def Obligations.ReverseSubtractAndShiftResults : Prop :=
  ∀ (s : State) (x y : Reg),
    EncodedAs (.subnReg x y) (0x8007 + 0x100 * x.toNat + 0x10 * y.toNat) ∧
    EncodedAs (.shr x y) (0x8006 + 0x100 * x.toNat + 0x10 * y.toNat) ∧
    EncodedAs (.shl x y) (0x800E + 0x100 * x.toNat + 0x10 * y.toNat) ∧
    SetsRegisterAndFlag (exec (.subnReg x y) s) s x
      (BitVec.ofNat 8 (((s.readV y).toNat + 256 - (s.readV x).toNat) % 256))
      (if (s.readV x).toNat ≤ (s.readV y).toNat then 1#8 else 0#8) ∧
    SetsRegisterAndFlag (exec (.shr x y) s) s x
      (BitVec.ofNat 8 ((s.readV x).toNat / 2)) (BitVec.ofNat 8 ((s.readV x).toNat % 2)) ∧
    SetsRegisterAndFlag (exec (.shl x y) s) s x
      (BitVec.ofNat 8 (2 * (s.readV x).toNat % 256)) (BitVec.ofNat 8 ((s.readV x).toNat / 128))

/-- CXNN takes exactly one byte from the provider, the next one it has ready or else a free value, and puts its AND with NN into
VX (41_arithmetic.md section 6). The two provider fields and the free value are the model's, log 2. -/
def Obligations.RandomResult : Prop :=
  ∀ (s : State) (x : Reg) (nn : Byte),
    EncodedAs (.rnd x nn) (0xC000 + 0x100 * x.toNat + nn.toNat) ∧
    (∀ b rest, s.supplied = b :: rest →
      Completes (exec (.rnd x nn) s) fun t => t.readV x = b &&& nn ∧ t.supplied = rest ∧ t.draws = s.draws + 1 ∧
        (∀ r, r ≠ x → t.readV r = s.readV r) ∧ OnlyChanges [.v, .provider] s t) ∧
    (s.supplied = [] →
      Completes (exec (.rnd x nn) s) fun t => t.readV x = Config.randomByte s.draws &&& nn ∧ t.supplied = [] ∧
        t.draws = s.draws + 1 ∧ (∀ r, r ≠ x → t.readV r = s.readV r) ∧ OnlyChanges [.v, .provider] s t)

/-! ### Control flow (42_control_flow.md) -/

/-- 42_control_flow.md R171: 1NNN puts the zero-extended NNN into PC and changes nothing else. -/
def Obligations.JumpResult : Prop :=
  ∀ (s : State) (nnn : Addr),
    EncodedAs (.jp nnn) (0x1000 + nnn.toNat) ∧
    Completes (exec (.jp nnn) s) fun t => t.pc.toNat = nnn.toNat ∧ OnlyChanges [.pc] s t

/-- BNNN puts the exact sum of NNN and V0 into PC, not reduced modulo 4096, and changes nothing else (42_control_flow.md section
2; that it is neither wrapped nor checked is the spec's decision D8, log 10). -/
def Obligations.JumpPlusV0Result : Prop :=
  ∀ (s : State) (nnn : Addr),
    EncodedAs (.jpV0 nnn) (0xB000 + nnn.toNat) ∧
    Completes (exec (.jpV0 nnn) s) fun t => t.pc.toNat = nnn.toNat + (s.readV 0x0#4).toNat ∧ OnlyChanges [.pc] s t

/-- 2NNN with room on the stack pushes the advanced PC and jumps; every other entry stays (42_control_flow.md section 3). On a full
stack it takes `StackOverflow` in the state it was fetched in (latch and payload: decisions D10 and D11, logs 1 and 31). -/
def Obligations.CallResult : Prop :=
  ∀ (s : State) (nnn : Addr),
    EncodedAs (.call nnn) (0x2000 + nnn.toNat) ∧
    (s.sp.toNat < 16 →
      Completes (exec (.call nnn) s) fun t => t.pc.toNat = nnn.toNat ∧ t.sp.toNat = s.sp.toNat + 1 ∧
        t.stack[s.sp.toNat]? = some s.pc ∧ (∀ k : Nat, k ≠ s.sp.toNat → t.stack[k]? = s.stack[k]?) ∧
        OnlyChanges [.pc, .sp, .stack] s t) ∧
    (16 ≤ s.sp.toNat →
      Completes (exec (.call nnn) s) fun t =>
        t.fault = some (.stackOverflow (BitVec.ofNat 16 (0x2000 + nnn.toNat)) (s.pc - 2#16)) ∧
        t.pc = s.pc - 2#16 ∧ OnlyChanges [.pc, .fault] s t)

/-- 00EE pops the newest return address into PC, 16 bits as pushed, and leaves the stack entries alone (42_control_flow.md section
3). On an empty stack it takes `StackUnderflow` in the state it was fetched in (decisions D10 and D11, logs 1 and 31). With an SP
above 16, which no run reaches, the model stops (log 21). -/
def Obligations.ReturnResult : Prop :=
  ∀ s : State,
    EncodedAs .ret 0x00EE ∧
    (∀ w, 1 ≤ s.sp.toNat → s.stack[s.sp.toNat - 1]? = some w →
      Completes (exec .ret s) fun t => t.pc = w ∧ t.sp.toNat = s.sp.toNat - 1 ∧ OnlyChanges [.pc, .sp] s t) ∧
    (s.sp.toNat = 0 →
      Completes (exec .ret s) fun t => t.fault = some (.stackUnderflow 0x00EE#16 (s.pc - 2#16)) ∧
        t.pc = s.pc - 2#16 ∧ OnlyChanges [.pc, .fault] s t) ∧
    (16 < s.sp.toNat → exec .ret s = .fault (.illegalStackPointer s.sp))

/-- 3XNN, 4XNN, 5XY0 and 9XY0 add 2 to the advanced PC exactly when their comparison holds, and change nothing else; a nonzero low
nibble in families 5 and 9 is an unknown opcode (42_control_flow.md sections 1 and 4). The last clause is the spec's resolution of
conflict C5, log 24, and that the skip is not masked is decision D8, log 10. -/
def Obligations.RegisterSkipResults : Prop :=
  ∀ (s : State) (x y : Reg) (nn : Byte),
    EncodedAs (.seImm x nn) (0x3000 + 0x100 * x.toNat + nn.toNat) ∧
    EncodedAs (.sneImm x nn) (0x4000 + 0x100 * x.toNat + nn.toNat) ∧
    EncodedAs (.seReg x y) (0x5000 + 0x100 * x.toNat + 0x10 * y.toNat) ∧
    EncodedAs (.sneReg x y) (0x9000 + 0x100 * x.toNat + 0x10 * y.toNat) ∧
    (∀ w : Word, opField w = 0x5#4 ∨ opField w = 0x9#4 → nField w ≠ 0x0#4 → decode w = .unknown w) ∧
    SkipsWhen (exec (.seImm x nn) s) s ((s.readV x).toNat = nn.toNat) ∧
    SkipsWhen (exec (.sneImm x nn) s) s ((s.readV x).toNat ≠ nn.toNat) ∧
    SkipsWhen (exec (.seReg x y) s) s ((s.readV x).toNat = (s.readV y).toNat) ∧
    SkipsWhen (exec (.sneReg x y) s) s ((s.readV x).toNat ≠ (s.readV y).toNat)

/-- A return undoes a call: after 2NNN with room on the stack, 00EE in any state with that stack and SP goes on at the instruction
after the call with SP as before it (42_control_flow.md section 3). -/
def Obligations.ReturnUndoesCall : Prop :=
  ∀ (s t u : State) (nnn : Addr), s.sp.toNat < 16 → exec (.call nnn) s = .next t → u.sp = t.sp → u.stack = t.stack →
    Completes (exec .ret u) fun w => w.pc = s.pc ∧ w.sp = s.sp ∧ OnlyChanges [.pc, .sp] u w

/-! ### Index register and memory (43_memory_index.md) -/

/-- 43_memory_index.md R190: ANNN puts the zero-extended NNN into I and changes nothing else. -/
def Obligations.LoadIndexResult : Prop :=
  ∀ (s : State) (nnn : Addr),
    EncodedAs (.ldI nnn) (0xA000 + nnn.toNat) ∧
    Completes (exec (.ldI nnn) s) fun t => t.i.toNat = nnn.toNat ∧ OnlyChanges [.i] s t

/-- FX29 puts the address of the glyph of VX's low nibble into I, `FONT_BASE + 5 * (VX & 0xF)`, for every value of the parameter
`FONT_BASE`, and reads no memory and changes nothing else (43_memory_index.md section 2). Its default 0x000 is the spec's
decision D2, log 4. -/
def Obligations.GlyphAddressResult : Prop :=
  ∀ (s : State) (x : Reg),
    EncodedAs (.ldFont x) (0xF029 + 0x100 * x.toNat) ∧
    Completes (exec (.ldFont x) s) fun t =>
      t.i.toNat = s.params.fontBase.val + 5 * ((s.readV x).toNat % 16) ∧ OnlyChanges [.i] s t

/-- FX1E puts `(I + VX) mod 4096` into I (43_memory_index.md section 2). With the parameter `FX1E_SETS_VF` false it changes nothing
else; with it true it then writes the overflow of the 12 bits, computed from the old I and VX, to VF and changes nothing else.
The default, false, is the spec's decision D1, log 3. -/
def Obligations.AddIndexResult : Prop :=
  ∀ (s : State) (x : Reg),
    EncodedAs (.addI x) (0xF01E + 0x100 * x.toNat) ∧
    (s.params.fx1eSetsVF = false →
      Completes (exec (.addI x) s) fun t =>
        t.i.toNat = (s.i.toNat + (s.readV x).toNat) % 4096 ∧ OnlyChanges [.i] s t) ∧
    (s.params.fx1eSetsVF = true →
      Completes (exec (.addI x) s) fun t =>
        t.i.toNat = (s.i.toNat + (s.readV x).toNat) % 4096 ∧
        t.readV vf = (if 0xFFF < s.i.toNat + (s.readV x).toNat then 1#8 else 0#8) ∧
        (∀ r, r ≠ vf → t.readV r = s.readV r) ∧ OnlyChanges [.i, .v] s t)

/-- FX33 stores the hundreds, tens and ones digits of VX at the addresses `(I + 0) & 0xFFF`, `(I + 1) &
0xFFF` and `(I + 2) & 0xFFF`; every other address reads as before and nothing else changes. The premise is the canonical form of
memory, which `StepKeepsInvariant` keeps (43_memory_index.md section 3; that I stays is the spec's decision D14 and the wrap D35,
logs 14 and 32). -/
def Obligations.DecimalDigitsStored : Prop :=
  (∀ x : Reg, EncodedAs (.ldBcd x) (0xF033 + 0x100 * x.toNat)) ∧
  ∀ (s : State) (x : Reg), s.mem.wf s.params = true →
    Completes (exec (.ldBcd x) s) fun t =>
      (t.memRead (ea s.i 0)).toNat = (s.readV x).toNat / 100 ∧
      (t.memRead (ea s.i 1)).toNat = (s.readV x).toNat / 10 % 10 ∧
      (t.memRead (ea s.i 2)).toNat = (s.readV x).toNat % 10 ∧
      (∀ a, a ≠ ea s.i 0 → a ≠ ea s.i 1 → a ≠ ea s.i 2 → t.memRead a = s.memRead a) ∧ OnlyChanges [.mem] s t

/-- FX55 stores V0 to VX at the addresses `(I + k) & 0xFFF`, k from 0 to X; every other address reads as
before, I and all else are unchanged. The premise is the canonical form of memory (43_memory_index.md section 3; D14 and D35, logs 14
and 32). -/
def Obligations.RegistersStored : Prop :=
  (∀ x : Reg, EncodedAs (.storeRegs x) (0xF055 + 0x100 * x.toNat)) ∧
  ∀ (s : State) (x : Reg), s.mem.wf s.params = true →
    Completes (exec (.storeRegs x) s) fun t =>
      (∀ k : Reg, k.toNat ≤ x.toNat → t.memRead (ea s.i k.toNat) = s.readV k) ∧
      (∀ a, (∀ k : Reg, k.toNat ≤ x.toNat → a ≠ ea s.i k.toNat) → t.memRead a = s.memRead a) ∧ OnlyChanges [.mem] s t

/-- FX65 loads V0 to VX from the addresses `(I + k) & 0xFFF`, k from 0 to X; the registers above VX, I,
memory and all else are unchanged (43_memory_index.md section 4; D14 and D35, logs 14 and 32). -/
def Obligations.RegistersLoaded : Prop :=
  ∀ (s : State) (x : Reg),
    EncodedAs (.loadRegs x) (0xF065 + 0x100 * x.toNat) ∧
    Completes (exec (.loadRegs x) s) fun t =>
      (∀ k : Reg, k.toNat ≤ x.toNat → t.readV k = s.memRead (ea s.i k.toNat)) ∧
      (∀ k : Reg, x.toNat < k.toNat → t.readV k = s.readV k) ∧ OnlyChanges [.v] s t

/-- The effective address is `(I + k) mod 4096`, for every I and k an instruction counts (43_memory_index.md section 1; the
spec's decision D35, log 32). -/
def Obligations.EffectiveAddressWraps : Prop :=
  ∀ (i : Word) (k : Nat), (ea i k).toNat = (i.toNat + k) % 4096

/-- The round trip of the source: after FX55 stored V0 to VX, FX65 in any state that reads memory as then and has the same I restores
the values they had, whatever the registers hold by then (43_memory_index.md section 4; that I stays is decision D14, log 14). -/
def Obligations.StoreThenLoadRestoresRegisters : Prop :=
  ∀ (s t u : State) (x : Reg), s.mem.wf s.params = true → exec (.storeRegs x) s = .next t →
    (∀ a, u.memRead a = t.memRead a) → u.i = s.i →
    Completes (exec (.loadRegs x) u) fun w => ∀ k : Reg, k.toNat ≤ x.toNat → w.readV k = s.readV k

/-- A store into code is seen by the next fetch: if FX55 stores registers k and k + 1 on the two bytes at PC, the word fetched next
is made of those two registers, whatever was there before (20_memory.md section 8). -/
def Obligations.StoredCodeIsFetchedNext : Prop :=
  ∀ (s t : State) (x k : Reg), s.mem.wf s.params = true → k.toNat < x.toNat → ea s.pc 0 = ea s.i k.toNat →
    exec (.storeRegs x) s = .next t → t.fetchWord = s.readV k ++ s.readV (k + 1#4)

/-! ### Graphics (44_graphics.md) -/

/-- 44_graphics.md R210: 00E0 turns every pixel off and changes nothing else. -/
def Obligations.ClearScreenResult : Prop :=
  EncodedAs .cls 0x00E0 ∧
  ∀ s : State, Completes (exec .cls s) fun t => (∀ y x, t.pixel y x = false) ∧ OnlyChanges [.fb] s t

/-- DXYN inverts exactly the pixels that the sprite's 1 bits cover, coordinates reduced modulo 64 and 32 pixel by pixel, and sets
VF to 1 if one of them was on and to 0 otherwise, also when N is 0 or VF is a coordinate; nothing else changes (44_graphics.md,
the draw). That bit 7 is the leftmost is PRESUMED (decision D15, log 15). -/
def Obligations.DrawInvertsCoveredPixels : Prop :=
  ∀ (s : State) (x y : Reg) (n : Nibble),
    EncodedAs (.drw x y n) (0xD000 + 0x100 * x.toNat + 0x10 * y.toNat + n.toNat) ∧
    Completes (exec (.drw x y n) s) fun t =>
      (∀ row col, s.SpriteCovers (s.readV x) (s.readV y) n.toNat row col → t.pixel row col = !s.pixel row col) ∧
      (∀ row col, ¬ s.SpriteCovers (s.readV x) (s.readV y) n.toNat row col → t.pixel row col = s.pixel row col) ∧
      ((∃ row col, s.SpriteCovers (s.readV x) (s.readV y) n.toNat row col ∧ s.pixel row col = true) → t.readV vf = 1#8) ∧
      ((∀ row col, s.SpriteCovers (s.readV x) (s.readV y) n.toNat row col → s.pixel row col = false) → t.readV vf = 0#8) ∧
      (∀ r, r ≠ vf → t.readV r = s.readV r) ∧ OnlyChanges [.v, .fb] s t

/-- Drawing the same sprite twice at the same place restores the display, and the second draw reports a collision exactly when the
sprite covers a pixel that was off before the first (44_graphics.md, the draw; conflict C7). That bit 7 is the leftmost
pixel is PRESUMED (decision D15, log 15), and that sprites wrap is log 16. X and Y are not VF, which the first
draw changes. -/
def Obligations.DrawTwiceRestoresDisplay : Prop :=
  ∀ (s t u : State) (x y : Reg) (n : Nibble), x ≠ vf → y ≠ vf →
    exec (.drw x y n) s = .next t → exec (.drw x y n) t = .next u →
    u.fb = s.fb ∧
    (u.readV vf = 1#8 ↔ ∃ row col, s.SpriteCovers (s.readV x) (s.readV y) n.toNat row col ∧ s.pixel row col = false)

/-! ### Timers (45_timers.md) -/

/-- 45_timers.md R220, R221, R222: FX07 reads DT into VX, FX15 and FX18 write VX to DT and to ST; nothing else changes. -/
def Obligations.TimerInstructionResults : Prop :=
  ∀ (s : State) (x : Reg),
    EncodedAs (.ldVxDt x) (0xF007 + 0x100 * x.toNat) ∧
    EncodedAs (.ldDtVx x) (0xF015 + 0x100 * x.toNat) ∧
    EncodedAs (.ldStVx x) (0xF018 + 0x100 * x.toNat) ∧
    SetsRegister (exec (.ldVxDt x) s) s x s.dt ∧
    (Completes (exec (.ldDtVx x) s) fun t => t.dt = s.readV x ∧ OnlyChanges [.dt] s t) ∧
    (Completes (exec (.ldStVx x) s) fun t => t.st = s.readV x ∧ OnlyChanges [.st] s t)

/-- 60_exceptions.md R255: a tick lowers each timer by 1 unless it is 0, the two independently, and changes nothing else. -/
def Obligations.TickDecrementsTimers : Prop :=
  ∀ s : State, s.tickTimers.dt.toNat = s.dt.toNat - 1 ∧ s.tickTimers.st.toNat = s.st.toNat - 1 ∧
    OnlyChanges [.dt, .st] s s.tickTimers

/-- After k ticks with no write between them the delay timer has fallen by k and stopped at 0 (70_reset_and_hazards.md section 6),
and so has the sound timer. -/
def Obligations.TicksCountDownToZero : Prop :=
  ∀ (s : State) (k : Nat), (applyEvents (List.replicate k .tickTimers) s).dt.toNat = s.dt.toNat - k ∧
    (applyEvents (List.replicate k .tickTimers) s).st.toNat = s.st.toNat - k

/-! ### Input (46_input.md) -/

/-- EX9E skips when the key numbered by VX's low nibble is down, EXA1 when it is up; neither consults the previous sample nor
changes anything but PC (46_input.md section 2). The low nibble is the spec's decision D17, log 17. -/
def Obligations.KeySkipResults : Prop :=
  (∀ x : Reg, EncodedAs (.skp x) (0xE09E + 0x100 * x.toNat) ∧ EncodedAs (.sknp x) (0xE0A1 + 0x100 * x.toNat)) ∧
  ∀ (s : State) (x : Reg) (k : Key), k.toNat = (s.readV x).toNat % 16 →
    SkipsWhen (exec (.skp x) s) s (s.keyDown k = true) ∧ SkipsWhen (exec (.sknp x) s) s (s.keyDown k = false)

/-- FX0A with a key that went down since the previous cycle puts the lowest such key into VX and changes nothing else, so PC stays
past the instruction (46_input.md section 3; the lowest index is the spec's decision D18, log 18). -/
def Obligations.WaitForKeyCompletesOnEdge : Prop :=
  (∀ x : Reg, EncodedAs (.ldVxKey x) (0xF00A + 0x100 * x.toNat)) ∧
  ∀ (s : State) (x : Reg) (j : Key), s.keyWasDown j = false → s.keyDown j = true →
    (∀ k : Key, k.toNat < j.toNat → ¬ (s.keyWasDown k = false ∧ s.keyDown k = true)) →
    SetsRegister (exec (.ldVxKey x) s) s x (BitVec.ofNat 8 j.toNat)

/-- FX0A without a key that went down parks: the whole cycle changes nothing but the previous key sample, so the next cycle runs the
same instruction again; a key that is merely held does not end the wait (46_input.md section 3; decisions D18 and D34, logs 18
and 25). -/
def Obligations.WaitForKeyParksWithoutEdge : Prop :=
  ∀ (s : State) (x : Reg), s.fault = none → s.pc.toNat ≤ 0x0FFF → decode s.fetchWord = .instr (.ldVxKey x) →
    (∀ k : Key, s.keyDown k = true → s.keyWasDown k = true) →
    step s = .next { s with prevKeys := s.keys }

/-! ### Host operations (60_exceptions.md, 70_reset_and_hazards.md) -/

/-- `set_key` writes the level of an index 0 to 15 and nothing else, and turns any other index away with nothing changed
(60_exceptions.md section 6; decisions D26 and D33, logs 27 and 20). -/
def Obligations.SetKeyWritesOneLevel : Prop :=
  ∀ (s : State) (index : Int) (isDown : Bool),
    (∀ k : Key, index = (k.toNat : Int) →
      (s.setKey index isDown).2 = none ∧ (s.setKey index isDown).1.keyDown k = isDown ∧
      (∀ j, j ≠ k → (s.setKey index isDown).1.keyDown j = s.keyDown j) ∧ OnlyChanges [.keys] s (s.setKey index isDown).1) ∧
    (index < 0 ∨ 15 < index → s.setKey index isDown = (s, some (.invalidKeyIndex index)))

/-- `load_program` turns away more than 3584 bytes with nothing changed, and otherwise leaves the reset state, latch clear and
parameters kept, with
byte i of the image at 0x200 + i and every other address at its reset contents (70_reset_and_hazards.md section 2; decisions D5,
D24 and D33, logs 6 and 20). The provider's bytes go on, log 2. -/
def Obligations.LoadProgramResult : Prop :=
  ∀ (s : State) (bytes : List Byte),
    (3584 < bytes.length → s.loadProgram bytes = (s, some (.programTooLarge bytes.length))) ∧
    (bytes.length ≤ 3584 →
      (s.loadProgram bytes).2 = none ∧
      (∀ k (h : k < bytes.length), (s.loadProgram bytes).1.memRead (BitVec.ofNat 12 (0x200 + k)) = bytes[k]) ∧
      (∀ a : Addr, a.toNat < 0x200 ∨ 0x200 + bytes.length ≤ a.toNat →
        (s.loadProgram bytes).1.memRead a = (State.resetWith s.params).memRead a) ∧
      OnlyChanges [.mem, .provider] (State.resetWith s.params) (s.loadProgram bytes).1 ∧
      (s.loadProgram bytes).1.supplied = s.supplied ∧ (s.loadProgram bytes).1.draws = s.draws)

/-- 60_exceptions.md R261: the sound bit is `ST != 0`. -/
def Obligations.SoundBitIsTimerNonZero : Prop :=
  ∀ s : State, (s.shouldPlaySound = true ↔ s.st.toNat ≠ 0) ∧ (applyEvent .shouldPlaySound s).1 = s

/-- The snapshot holds pixel (x, y) at element `64 * y + x`, is all off right after 00E0, and taking it changes nothing
(60_exceptions.md section 6, 44_graphics.md; the layout is the spec's decision D32, log 28). -/
def Obligations.SnapshotShowsDisplay : Prop :=
  ∀ s : State,
    (∀ (y : Fin 32) (x : Fin 64), s.displaySnapshot[64 * y.val + x.val]? = some (s.pixel y x)) ∧
    (applyEvent .displaySnapshot s).1 = s ∧
    (Completes (exec .cls s) fun t => ∀ k : Fin 2048, t.displaySnapshot[k] = false)

/-- With a fault latched no operation but `load_program` changes anything except the keys, the timers and the provider's queue
(10_state.md section 9; decisions D10 and D28, logs 1 and 29). -/
def Obligations.LatchedMachineChangesOnlyKeysAndTimers : Prop :=
  ∀ (s : State) (r : FaultRecord) (e : Event), s.fault = some r → (∀ bytes, e ≠ .loadProgram bytes) →
    OnlyChanges [.keys, .dt, .st, .provider] s (applyEvent e s).1 ∧ (applyEvent e s).1.draws = s.draws

/-! ### Reset and invariants -/

/-- The state after reset, with any parameters, reads as 10_state.md section 7 says: registers, I, SP and stack 0, PC 0x200, display
off, and, by the spec's decisions D5, D6, D7 and D10 (logs 6, 7, 8 and 1), `FONT_DATA` at `FONT_BASE`, 0x00 elsewhere, timers 0,
keys up, no fault. `State.reset` is the one with the defaults of decisions D1, D2 and D3 (logs 3, 4 and 5). -/
def Obligations.ResetValues : Prop :=
  State.reset = State.resetWith defaultParams ∧
  ∀ p : Params, (State.resetWith p).params = p ∧
    (∀ r, (State.resetWith p).readV r = 0#8) ∧ (State.resetWith p).i = 0#16 ∧ (State.resetWith p).pc = 0x200#16 ∧
    (State.resetWith p).sp = 0#8 ∧ (∀ k : Fin 16, (State.resetWith p).stack[k] = 0#16) ∧
    (∀ y x, (State.resetWith p).pixel y x = false) ∧ (State.resetWith p).dt = 0#8 ∧ (State.resetWith p).st = 0#8 ∧
    (∀ k, (State.resetWith p).keyDown k = false) ∧ (∀ k, (State.resetWith p).keyWasDown k = false) ∧
    (State.resetWith p).fault = none ∧
    (∀ k : Fin 80, (State.resetWith p).memRead (BitVec.ofNat 12 (p.fontBase.val + k.val)) = p.fontData[k]) ∧
    (∀ a : Addr, a.toNat < p.fontBase.val ∨ p.fontBase.val + 80 ≤ a.toNat → (State.resetWith p).memRead a = 0#8)

/-- A machine that has never had a program loaded takes `UnknownOpcode(0x0000)` at 0x200 in its first cycle, whatever its parameters,
and the second returns that record (70_reset_and_hazards.md section 1; decisions D5, D30 and D10, logs 6, 23 and 1). -/
def Obligations.FirstCycleFromResetTakesUnknownOpcode : Prop :=
  ∀ p : Params, Completes (step (State.resetWith p)) fun t =>
    t = { State.resetWith p with fault := some (.unknownOpcode 0x0000#16 0x200#16) } ∧
    step t = .fault (.latched (.unknownOpcode 0x0000#16 0x200#16))

/-- The reset state, with any parameters, meets the invariants of 10_state.md section 9 and the canonical form of memory. -/
def Obligations.InvariantHoldsAtReset : Prop := ∀ p : Params, (State.resetWith p).Inv

/-- Every step keeps the invariants of 10_state.md section 9 from every state that has them, reached or not: I at most 0x0FFF, SP at
most 16, PC at most 0x10FE, every live return address at most 0x1001, and memory canonical. -/
def Obligations.StepKeepsInvariant : Prop :=
  ∀ s t : State, s.Inv → step s = .next t → t.Inv

/-- Every reachable state, with any parameters and under any interleaving of the boundary operations, has the invariants
(10_state.md section 9; the interleaving is the spec's decision D21, log 19). -/
def Obligations.ReachableStatesHaveInvariant : Prop :=
  ∀ s : State, Reachable s → s.Inv

/-- A latched record tells the truth about the state it is latched in, in every reachable state: its address and word are those at
PC, and the condition it names is the case (60_exceptions.md sections 1 and 2; decisions D10 and D11, logs 1 and 31). -/
def Obligations.ReachableLatchTellsTruth : Prop :=
  ∀ s : State, Reachable s → s.LatchTrue

/-- Every step and every operation keeps the truth of the latch, from every state that has it, reached or not: a record latched
afterwards names the word at PC, the address PC, and a condition that is the case (60_exceptions.md sections 1 and 2; decisions D10
and D11, logs 1 and 31; conflict C5, log 24). -/
def Obligations.StepKeepsLatchTruth : Prop :=
  ∀ s : State, s.LatchTrue →
    (∀ t, step s = .next t → t.LatchTrue) ∧ (∀ e : Event, (applyEvent e s).1.LatchTrue)
end

