-- ==== Sys2Proof/Laws/Memory.lean ====
section
/-! SUPPORT. The laws of memory: a write is read back, it leaves every other address alone, and it keeps the canonical form, so
that equal contents are equal lists. -/

namespace Sys2Proof.Machine

variable {p : Params}

theorem Memory.wfFrom_mono {m : Memory} {low low' : Nat} (h : low' ≤ low) (hm : m.wfFrom p low = true) :
    m.wfFrom p low' = true := by
  cases m with
  | nil => rfl
  | cons c rest =>
    obtain ⟨a, v⟩ := c
    simp only [Memory.wfFrom, Bool.and_eq_true, decide_eq_true_eq] at hm ⊢
    exact ⟨⟨⟨by omega, hm.1.1.2⟩, hm.1.2⟩, hm.2⟩

/-- Below the first listed address, memory reads as its reset contents. -/
theorem Memory.get_below {m : Memory} {low a : Nat} (hm : m.wfFrom p low = true) (h : a < low) : m.get p a = background p a := by
  induction m generalizing low with
  | nil => rfl
  | cons c rest ih =>
    obtain ⟨b, v⟩ := c
    simp only [Memory.wfFrom, Bool.and_eq_true, decide_eq_true_eq] at hm
    have hb : b ≠ a := by omega
    simp only [Memory.get, hb, if_false]
    exact ih hm.2 (by omega)

theorem Memory.get_put_same {m : Memory} {low a : Nat} (v : Byte) (hm : m.wfFrom p low = true) : (m.put p a v).get p a = v := by
  induction m generalizing low with
  | nil =>
    unfold Memory.put
    split
    · next h => exact h.symm
    · simp [Memory.get]
  | cons c rest ih =>
    obtain ⟨b, w⟩ := c
    have hm' := hm
    simp only [Memory.wfFrom, Bool.and_eq_true, decide_eq_true_eq] at hm
    unfold Memory.put
    split
    · next hab =>
      have hbelow : Memory.get p ((b, w) :: rest) a = background p a :=
        Memory.get_below (low := b) (by simp [Memory.wfFrom, hm.1.1.2, hm.1.2, hm.2]) hab
      split
      · next h => rw [hbelow, h]
      · simp [Memory.get]
    · split
      · next hba =>
        subst hba
        split
        · next h => rw [Memory.get_below hm.2 (by omega), h]
        · simp [Memory.get]
      · next hne =>
        have hne' : b ≠ a := fun e => hne e.symm
        simp only [Memory.get, hne', if_false]
        exact ih hm.2

theorem Memory.get_put_other (m : Memory) {a b : Nat} (v : Byte) (h : b ≠ a) : (m.put p a v).get p b = m.get p b := by
  induction m with
  | nil =>
    unfold Memory.put
    split
    · rfl
    · simp [Memory.get, h.symm]
  | cons c rest ih =>
    obtain ⟨d, w⟩ := c
    unfold Memory.put
    split
    · split
      · rfl
      · simp [Memory.get, h.symm]
    · split
      · next hda =>
        subst hda
        split <;> simp [Memory.get, h.symm]
      · simp only [Memory.get, ih]

theorem Memory.wfFrom_put {m : Memory} {low a : Nat} (v : Byte) (hm : m.wfFrom p low = true) (hl : low ≤ a)
    (ha : a < Config.memSize) : (m.put p a v).wfFrom p low = true := by
  induction m generalizing low with
  | nil =>
    unfold Memory.put
    split
    · rfl
    · next h => simp [Memory.wfFrom, hl, ha, h]
  | cons c rest ih =>
    obtain ⟨b, w⟩ := c
    have hm' := hm
    simp only [Memory.wfFrom, Bool.and_eq_true, decide_eq_true_eq] at hm
    obtain ⟨⟨⟨hlb, hb⟩, hw⟩, hrest⟩ := hm
    unfold Memory.put
    split
    · next hab =>
      split
      · exact hm'
      · next hv =>
        have hab' : a + 1 ≤ b := hab
        simp [Memory.wfFrom, hl, ha, hv, hab', hb, hw, hrest]
    · split
      · next hab =>
        subst hab
        split
        · exact Memory.wfFrom_mono (by omega) hrest
        · next hv => simp [Memory.wfFrom, hl, ha, hv, hrest]
      · next hlt hne =>
        have := ih hrest (by omega : b + 1 ≤ a)
        simp [Memory.wfFrom, hlb, hb, hw, this]

/-- A byte written is read back. -/
theorem Memory.read_write_same {m : Memory} (hm : m.wf p = true) (a : Addr) (v : Byte) : (m.write p a v).read p a = v :=
  Memory.get_put_same v hm

/-- A write leaves every other address alone, in any memory. -/
theorem Memory.read_write_other (m : Memory) {a b : Addr} (v : Byte) (h : b ≠ a) : (m.write p a v).read p b = m.read p b :=
  Memory.get_put_other m v fun e => h (BitVec.eq_of_toNat_eq e)

/-- A write keeps the canonical form. -/
theorem Memory.wf_write {m : Memory} (hm : m.wf p = true) (a : Addr) (v : Byte) : (m.write p a v).wf p = true :=
  Memory.wfFrom_put v hm (Nat.zero_le _) a.isLt

/-- Two canonical memories with the same contents are the same list. -/
theorem Memory.ext_of_wfFrom {m n : Memory} {low : Nat} (hm : m.wfFrom p low = true) (hn : n.wfFrom p low = true)
    (h : ∀ a, m.get p a = n.get p a) : m = n := by
  induction m generalizing n low with
  | nil =>
    cases n with
    | nil => rfl
    | cons c rest =>
      obtain ⟨b, w⟩ := c
      simp only [Memory.wfFrom, Bool.and_eq_true, decide_eq_true_eq] at hn
      exact absurd (by simpa [Memory.get] using (h b).symm) hn.1.2
  | cons c rest ih =>
    obtain ⟨a, v⟩ := c
    have hm' := hm
    simp only [Memory.wfFrom, Bool.and_eq_true, decide_eq_true_eq] at hm
    cases n with
    | nil => exact absurd (by simpa [Memory.get] using h a) hm.1.2
    | cons d rest' =>
      obtain ⟨b, w⟩ := d
      have hn' := hn
      simp only [Memory.wfFrom, Bool.and_eq_true, decide_eq_true_eq] at hn
      have key : a = b := by
        rcases Nat.lt_trichotomy a b with hab | hab | hab
        · have e := h a
          have hne : b ≠ a := by omega
          simp only [Memory.get, hne, if_true, if_false] at e
          rw [Memory.get_below hn.2 (by omega)] at e
          exact absurd e hm.1.2
        · exact hab
        · have e := h b
          have hne : a ≠ b := by omega
          simp only [Memory.get, hne, if_true, if_false] at e
          rw [Memory.get_below hm.2 (by omega)] at e
          exact absurd e.symm hn.1.2
      subst key
      have hv : v = w := by simpa [Memory.get] using h a
      subst hv
      refine congrArg _ (ih hm.2 hn.2 fun x => ?_)
      by_cases hx : a = x
      · subst hx
        rw [Memory.get_below hm.2 (by omega), Memory.get_below hn.2 (by omega)]
      · simpa [Memory.get, hx] using h x

/-- Above the address space nothing is listed. -/
theorem Memory.get_above {m : Memory} {low a : Nat} (hm : m.wfFrom p low = true) (h : Config.memSize ≤ a) :
    m.get p a = background p a := by
  induction m generalizing low with
  | nil => rfl
  | cons c rest ih =>
    obtain ⟨b, v⟩ := c
    simp only [Memory.wfFrom, Bool.and_eq_true, decide_eq_true_eq] at hm
    have hb : b ≠ a := by omega
    simp only [Memory.get, hb, if_false]
    exact ih hm.2

/-- Canonical memories that read the same at every address are equal data. -/
theorem Memory.eq_of_read_eq {m n : Memory} (hm : m.wf p = true) (hn : n.wf p = true) (h : ∀ a, m.read p a = n.read p a) : m = n := by
  refine Memory.ext_of_wfFrom hm hn fun a => ?_
  by_cases ha : a < Config.memSize
  · have := h (BitVec.ofNat 12 a)
    simpa [Memory.read, Nat.mod_eq_of_lt (show a < 4096 from ha)] using this
  · rw [Memory.get_above hm (by omega), Memory.get_above hn (by omega)]

end Sys2Proof.Machine
end

