-- ==== Sys2Proof/Laws/State.lean ====
section
/-! SUPPORT. What each named update of the state does to each field: one lemma per field and update, so that no later proof
unfolds a record update. -/

namespace Sys2Proof.Machine

variable (s : State)

/-! ### setV -/

@[simp] theorem State.setV_v (x : Reg) (b : Byte) : (s.setV x b).v = s.v.set x.toNat b x.isLt := rfl
@[simp] theorem State.setV_i (x : Reg) (b : Byte) : (s.setV x b).i = s.i := rfl
@[simp] theorem State.setV_pc (x : Reg) (b : Byte) : (s.setV x b).pc = s.pc := rfl
@[simp] theorem State.setV_sp (x : Reg) (b : Byte) : (s.setV x b).sp = s.sp := rfl
@[simp] theorem State.setV_stack (x : Reg) (b : Byte) : (s.setV x b).stack = s.stack := rfl
@[simp] theorem State.setV_dt (x : Reg) (b : Byte) : (s.setV x b).dt = s.dt := rfl
@[simp] theorem State.setV_st (x : Reg) (b : Byte) : (s.setV x b).st = s.st := rfl
@[simp] theorem State.setV_mem (x : Reg) (b : Byte) : (s.setV x b).mem = s.mem := rfl
@[simp] theorem State.setV_fb (x : Reg) (b : Byte) : (s.setV x b).fb = s.fb := rfl
@[simp] theorem State.setV_keys (x : Reg) (b : Byte) : (s.setV x b).keys = s.keys := rfl
@[simp] theorem State.setV_prevKeys (x : Reg) (b : Byte) : (s.setV x b).prevKeys = s.prevKeys := rfl
@[simp] theorem State.setV_fault (x : Reg) (b : Byte) : (s.setV x b).fault = s.fault := rfl
@[simp] theorem State.setV_params (x : Reg) (b : Byte) : (s.setV x b).params = s.params := rfl
@[simp] theorem State.setV_supplied (x : Reg) (b : Byte) : (s.setV x b).supplied = s.supplied := rfl
@[simp] theorem State.setV_draws (x : Reg) (b : Byte) : (s.setV x b).draws = s.draws := rfl

/-! ### setI -/

@[simp] theorem State.setI_v (w : Word) : (s.setI w).v = s.v := rfl
@[simp] theorem State.setI_i (w : Word) : (s.setI w).i = w := rfl
@[simp] theorem State.setI_pc (w : Word) : (s.setI w).pc = s.pc := rfl
@[simp] theorem State.setI_sp (w : Word) : (s.setI w).sp = s.sp := rfl
@[simp] theorem State.setI_stack (w : Word) : (s.setI w).stack = s.stack := rfl
@[simp] theorem State.setI_dt (w : Word) : (s.setI w).dt = s.dt := rfl
@[simp] theorem State.setI_st (w : Word) : (s.setI w).st = s.st := rfl
@[simp] theorem State.setI_mem (w : Word) : (s.setI w).mem = s.mem := rfl
@[simp] theorem State.setI_fb (w : Word) : (s.setI w).fb = s.fb := rfl
@[simp] theorem State.setI_keys (w : Word) : (s.setI w).keys = s.keys := rfl
@[simp] theorem State.setI_prevKeys (w : Word) : (s.setI w).prevKeys = s.prevKeys := rfl
@[simp] theorem State.setI_fault (w : Word) : (s.setI w).fault = s.fault := rfl
@[simp] theorem State.setI_params (w : Word) : (s.setI w).params = s.params := rfl
@[simp] theorem State.setI_supplied (w : Word) : (s.setI w).supplied = s.supplied := rfl
@[simp] theorem State.setI_draws (w : Word) : (s.setI w).draws = s.draws := rfl

/-! ### setPc -/

@[simp] theorem State.setPc_v (w : Word) : (s.setPc w).v = s.v := rfl
@[simp] theorem State.setPc_i (w : Word) : (s.setPc w).i = s.i := rfl
@[simp] theorem State.setPc_pc (w : Word) : (s.setPc w).pc = w := rfl
@[simp] theorem State.setPc_sp (w : Word) : (s.setPc w).sp = s.sp := rfl
@[simp] theorem State.setPc_stack (w : Word) : (s.setPc w).stack = s.stack := rfl
@[simp] theorem State.setPc_dt (w : Word) : (s.setPc w).dt = s.dt := rfl
@[simp] theorem State.setPc_st (w : Word) : (s.setPc w).st = s.st := rfl
@[simp] theorem State.setPc_mem (w : Word) : (s.setPc w).mem = s.mem := rfl
@[simp] theorem State.setPc_fb (w : Word) : (s.setPc w).fb = s.fb := rfl
@[simp] theorem State.setPc_keys (w : Word) : (s.setPc w).keys = s.keys := rfl
@[simp] theorem State.setPc_prevKeys (w : Word) : (s.setPc w).prevKeys = s.prevKeys := rfl
@[simp] theorem State.setPc_fault (w : Word) : (s.setPc w).fault = s.fault := rfl
@[simp] theorem State.setPc_params (w : Word) : (s.setPc w).params = s.params := rfl
@[simp] theorem State.setPc_supplied (w : Word) : (s.setPc w).supplied = s.supplied := rfl
@[simp] theorem State.setPc_draws (w : Word) : (s.setPc w).draws = s.draws := rfl

/-! ### setDt -/

@[simp] theorem State.setDt_v (b : Byte) : (s.setDt b).v = s.v := rfl
@[simp] theorem State.setDt_i (b : Byte) : (s.setDt b).i = s.i := rfl
@[simp] theorem State.setDt_pc (b : Byte) : (s.setDt b).pc = s.pc := rfl
@[simp] theorem State.setDt_sp (b : Byte) : (s.setDt b).sp = s.sp := rfl
@[simp] theorem State.setDt_stack (b : Byte) : (s.setDt b).stack = s.stack := rfl
@[simp] theorem State.setDt_dt (b : Byte) : (s.setDt b).dt = b := rfl
@[simp] theorem State.setDt_st (b : Byte) : (s.setDt b).st = s.st := rfl
@[simp] theorem State.setDt_mem (b : Byte) : (s.setDt b).mem = s.mem := rfl
@[simp] theorem State.setDt_fb (b : Byte) : (s.setDt b).fb = s.fb := rfl
@[simp] theorem State.setDt_keys (b : Byte) : (s.setDt b).keys = s.keys := rfl
@[simp] theorem State.setDt_prevKeys (b : Byte) : (s.setDt b).prevKeys = s.prevKeys := rfl
@[simp] theorem State.setDt_fault (b : Byte) : (s.setDt b).fault = s.fault := rfl
@[simp] theorem State.setDt_params (b : Byte) : (s.setDt b).params = s.params := rfl
@[simp] theorem State.setDt_supplied (b : Byte) : (s.setDt b).supplied = s.supplied := rfl
@[simp] theorem State.setDt_draws (b : Byte) : (s.setDt b).draws = s.draws := rfl

/-! ### setSt -/

@[simp] theorem State.setSt_v (b : Byte) : (s.setSt b).v = s.v := rfl
@[simp] theorem State.setSt_i (b : Byte) : (s.setSt b).i = s.i := rfl
@[simp] theorem State.setSt_pc (b : Byte) : (s.setSt b).pc = s.pc := rfl
@[simp] theorem State.setSt_sp (b : Byte) : (s.setSt b).sp = s.sp := rfl
@[simp] theorem State.setSt_stack (b : Byte) : (s.setSt b).stack = s.stack := rfl
@[simp] theorem State.setSt_dt (b : Byte) : (s.setSt b).dt = s.dt := rfl
@[simp] theorem State.setSt_st (b : Byte) : (s.setSt b).st = b := rfl
@[simp] theorem State.setSt_mem (b : Byte) : (s.setSt b).mem = s.mem := rfl
@[simp] theorem State.setSt_fb (b : Byte) : (s.setSt b).fb = s.fb := rfl
@[simp] theorem State.setSt_keys (b : Byte) : (s.setSt b).keys = s.keys := rfl
@[simp] theorem State.setSt_prevKeys (b : Byte) : (s.setSt b).prevKeys = s.prevKeys := rfl
@[simp] theorem State.setSt_fault (b : Byte) : (s.setSt b).fault = s.fault := rfl
@[simp] theorem State.setSt_params (b : Byte) : (s.setSt b).params = s.params := rfl
@[simp] theorem State.setSt_supplied (b : Byte) : (s.setSt b).supplied = s.supplied := rfl
@[simp] theorem State.setSt_draws (b : Byte) : (s.setSt b).draws = s.draws := rfl

/-! ### setFb -/

@[simp] theorem State.setFb_v (f : Display) : (s.setFb f).v = s.v := rfl
@[simp] theorem State.setFb_i (f : Display) : (s.setFb f).i = s.i := rfl
@[simp] theorem State.setFb_pc (f : Display) : (s.setFb f).pc = s.pc := rfl
@[simp] theorem State.setFb_sp (f : Display) : (s.setFb f).sp = s.sp := rfl
@[simp] theorem State.setFb_stack (f : Display) : (s.setFb f).stack = s.stack := rfl
@[simp] theorem State.setFb_dt (f : Display) : (s.setFb f).dt = s.dt := rfl
@[simp] theorem State.setFb_st (f : Display) : (s.setFb f).st = s.st := rfl
@[simp] theorem State.setFb_mem (f : Display) : (s.setFb f).mem = s.mem := rfl
@[simp] theorem State.setFb_fb (f : Display) : (s.setFb f).fb = f := rfl
@[simp] theorem State.setFb_keys (f : Display) : (s.setFb f).keys = s.keys := rfl
@[simp] theorem State.setFb_prevKeys (f : Display) : (s.setFb f).prevKeys = s.prevKeys := rfl
@[simp] theorem State.setFb_fault (f : Display) : (s.setFb f).fault = s.fault := rfl
@[simp] theorem State.setFb_params (f : Display) : (s.setFb f).params = s.params := rfl
@[simp] theorem State.setFb_supplied (f : Display) : (s.setFb f).supplied = s.supplied := rfl
@[simp] theorem State.setFb_draws (f : Display) : (s.setFb f).draws = s.draws := rfl

/-! ### memWrite -/

@[simp] theorem State.memWrite_v (a : Addr) (b : Byte) : (s.memWrite a b).v = s.v := rfl
@[simp] theorem State.memWrite_i (a : Addr) (b : Byte) : (s.memWrite a b).i = s.i := rfl
@[simp] theorem State.memWrite_pc (a : Addr) (b : Byte) : (s.memWrite a b).pc = s.pc := rfl
@[simp] theorem State.memWrite_sp (a : Addr) (b : Byte) : (s.memWrite a b).sp = s.sp := rfl
@[simp] theorem State.memWrite_stack (a : Addr) (b : Byte) : (s.memWrite a b).stack = s.stack := rfl
@[simp] theorem State.memWrite_dt (a : Addr) (b : Byte) : (s.memWrite a b).dt = s.dt := rfl
@[simp] theorem State.memWrite_st (a : Addr) (b : Byte) : (s.memWrite a b).st = s.st := rfl
@[simp] theorem State.memWrite_mem (a : Addr) (b : Byte) : (s.memWrite a b).mem = s.mem.write s.params a b := rfl
@[simp] theorem State.memWrite_fb (a : Addr) (b : Byte) : (s.memWrite a b).fb = s.fb := rfl
@[simp] theorem State.memWrite_keys (a : Addr) (b : Byte) : (s.memWrite a b).keys = s.keys := rfl
@[simp] theorem State.memWrite_prevKeys (a : Addr) (b : Byte) : (s.memWrite a b).prevKeys = s.prevKeys := rfl
@[simp] theorem State.memWrite_fault (a : Addr) (b : Byte) : (s.memWrite a b).fault = s.fault := rfl
@[simp] theorem State.memWrite_params (a : Addr) (b : Byte) : (s.memWrite a b).params = s.params := rfl
@[simp] theorem State.memWrite_supplied (a : Addr) (b : Byte) : (s.memWrite a b).supplied = s.supplied := rfl
@[simp] theorem State.memWrite_draws (a : Addr) (b : Byte) : (s.memWrite a b).draws = s.draws := rfl

/-! ### advance -/

@[simp] theorem State.advance_v : (s.advance).v = s.v := rfl
@[simp] theorem State.advance_i : (s.advance).i = s.i := rfl
@[simp] theorem State.advance_pc : (s.advance).pc = s.pc + 2#16 := rfl
@[simp] theorem State.advance_sp : (s.advance).sp = s.sp := rfl
@[simp] theorem State.advance_stack : (s.advance).stack = s.stack := rfl
@[simp] theorem State.advance_dt : (s.advance).dt = s.dt := rfl
@[simp] theorem State.advance_st : (s.advance).st = s.st := rfl
@[simp] theorem State.advance_mem : (s.advance).mem = s.mem := rfl
@[simp] theorem State.advance_fb : (s.advance).fb = s.fb := rfl
@[simp] theorem State.advance_keys : (s.advance).keys = s.keys := rfl
@[simp] theorem State.advance_prevKeys : (s.advance).prevKeys = s.prevKeys := rfl
@[simp] theorem State.advance_fault : (s.advance).fault = s.fault := rfl
@[simp] theorem State.advance_params : (s.advance).params = s.params := rfl
@[simp] theorem State.advance_supplied : (s.advance).supplied = s.supplied := rfl
@[simp] theorem State.advance_draws : (s.advance).draws = s.draws := rfl

/-! ### rewind -/

@[simp] theorem State.rewind_v : (s.rewind).v = s.v := rfl
@[simp] theorem State.rewind_i : (s.rewind).i = s.i := rfl
@[simp] theorem State.rewind_pc : (s.rewind).pc = s.pc - 2#16 := rfl
@[simp] theorem State.rewind_sp : (s.rewind).sp = s.sp := rfl
@[simp] theorem State.rewind_stack : (s.rewind).stack = s.stack := rfl
@[simp] theorem State.rewind_dt : (s.rewind).dt = s.dt := rfl
@[simp] theorem State.rewind_st : (s.rewind).st = s.st := rfl
@[simp] theorem State.rewind_mem : (s.rewind).mem = s.mem := rfl
@[simp] theorem State.rewind_fb : (s.rewind).fb = s.fb := rfl
@[simp] theorem State.rewind_keys : (s.rewind).keys = s.keys := rfl
@[simp] theorem State.rewind_prevKeys : (s.rewind).prevKeys = s.prevKeys := rfl
@[simp] theorem State.rewind_fault : (s.rewind).fault = s.fault := rfl
@[simp] theorem State.rewind_params : (s.rewind).params = s.params := rfl
@[simp] theorem State.rewind_supplied : (s.rewind).supplied = s.supplied := rfl
@[simp] theorem State.rewind_draws : (s.rewind).draws = s.draws := rfl

/-! ### push -/

@[simp] theorem State.push_v (w : Word) : (s.push w).v = s.v := rfl
@[simp] theorem State.push_i (w : Word) : (s.push w).i = s.i := rfl
@[simp] theorem State.push_pc (w : Word) : (s.push w).pc = s.pc := rfl
@[simp] theorem State.push_sp (w : Word) : (s.push w).sp = s.sp + 1#8 := rfl
@[simp] theorem State.push_stack (w : Word) : (s.push w).stack = s.stack.setIfInBounds s.sp.toNat w := rfl
@[simp] theorem State.push_dt (w : Word) : (s.push w).dt = s.dt := rfl
@[simp] theorem State.push_st (w : Word) : (s.push w).st = s.st := rfl
@[simp] theorem State.push_mem (w : Word) : (s.push w).mem = s.mem := rfl
@[simp] theorem State.push_fb (w : Word) : (s.push w).fb = s.fb := rfl
@[simp] theorem State.push_keys (w : Word) : (s.push w).keys = s.keys := rfl
@[simp] theorem State.push_prevKeys (w : Word) : (s.push w).prevKeys = s.prevKeys := rfl
@[simp] theorem State.push_fault (w : Word) : (s.push w).fault = s.fault := rfl
@[simp] theorem State.push_params (w : Word) : (s.push w).params = s.params := rfl
@[simp] theorem State.push_supplied (w : Word) : (s.push w).supplied = s.supplied := rfl
@[simp] theorem State.push_draws (w : Word) : (s.push w).draws = s.draws := rfl

/-! ### drop -/

@[simp] theorem State.drop_v : (s.drop).v = s.v := rfl
@[simp] theorem State.drop_i : (s.drop).i = s.i := rfl
@[simp] theorem State.drop_pc : (s.drop).pc = s.pc := rfl
@[simp] theorem State.drop_sp : (s.drop).sp = s.sp - 1#8 := rfl
@[simp] theorem State.drop_stack : (s.drop).stack = s.stack := rfl
@[simp] theorem State.drop_dt : (s.drop).dt = s.dt := rfl
@[simp] theorem State.drop_st : (s.drop).st = s.st := rfl
@[simp] theorem State.drop_mem : (s.drop).mem = s.mem := rfl
@[simp] theorem State.drop_fb : (s.drop).fb = s.fb := rfl
@[simp] theorem State.drop_keys : (s.drop).keys = s.keys := rfl
@[simp] theorem State.drop_prevKeys : (s.drop).prevKeys = s.prevKeys := rfl
@[simp] theorem State.drop_fault : (s.drop).fault = s.fault := rfl
@[simp] theorem State.drop_params : (s.drop).params = s.params := rfl
@[simp] theorem State.drop_supplied : (s.drop).supplied = s.supplied := rfl
@[simp] theorem State.drop_draws : (s.drop).draws = s.draws := rfl

/-! ### afterDraw -/

@[simp] theorem State.afterDraw_v : (s.afterDraw).v = s.v := rfl
@[simp] theorem State.afterDraw_i : (s.afterDraw).i = s.i := rfl
@[simp] theorem State.afterDraw_pc : (s.afterDraw).pc = s.pc := rfl
@[simp] theorem State.afterDraw_sp : (s.afterDraw).sp = s.sp := rfl
@[simp] theorem State.afterDraw_stack : (s.afterDraw).stack = s.stack := rfl
@[simp] theorem State.afterDraw_dt : (s.afterDraw).dt = s.dt := rfl
@[simp] theorem State.afterDraw_st : (s.afterDraw).st = s.st := rfl
@[simp] theorem State.afterDraw_mem : (s.afterDraw).mem = s.mem := rfl
@[simp] theorem State.afterDraw_fb : (s.afterDraw).fb = s.fb := rfl
@[simp] theorem State.afterDraw_keys : (s.afterDraw).keys = s.keys := rfl
@[simp] theorem State.afterDraw_prevKeys : (s.afterDraw).prevKeys = s.prevKeys := rfl
@[simp] theorem State.afterDraw_fault : (s.afterDraw).fault = s.fault := rfl
@[simp] theorem State.afterDraw_params : (s.afterDraw).params = s.params := rfl
@[simp] theorem State.afterDraw_supplied : (s.afterDraw).supplied = s.supplied.tail := rfl
@[simp] theorem State.afterDraw_draws : (s.afterDraw).draws = s.draws + 1 := rfl

/-! ### tickTimers -/

@[simp] theorem State.tickTimers_v : (s.tickTimers).v = s.v := rfl
@[simp] theorem State.tickTimers_i : (s.tickTimers).i = s.i := rfl
@[simp] theorem State.tickTimers_pc : (s.tickTimers).pc = s.pc := rfl
@[simp] theorem State.tickTimers_sp : (s.tickTimers).sp = s.sp := rfl
@[simp] theorem State.tickTimers_stack : (s.tickTimers).stack = s.stack := rfl
@[simp] theorem State.tickTimers_dt : (s.tickTimers).dt = countDown s.dt := rfl
@[simp] theorem State.tickTimers_st : (s.tickTimers).st = countDown s.st := rfl
@[simp] theorem State.tickTimers_mem : (s.tickTimers).mem = s.mem := rfl
@[simp] theorem State.tickTimers_fb : (s.tickTimers).fb = s.fb := rfl
@[simp] theorem State.tickTimers_keys : (s.tickTimers).keys = s.keys := rfl
@[simp] theorem State.tickTimers_prevKeys : (s.tickTimers).prevKeys = s.prevKeys := rfl
@[simp] theorem State.tickTimers_fault : (s.tickTimers).fault = s.fault := rfl
@[simp] theorem State.tickTimers_params : (s.tickTimers).params = s.params := rfl
@[simp] theorem State.tickTimers_supplied : (s.tickTimers).supplied = s.supplied := rfl
@[simp] theorem State.tickTimers_draws : (s.tickTimers).draws = s.draws := rfl

/-! ### supplyByte -/

@[simp] theorem State.supplyByte_v (b : Byte) : (s.supplyByte b).v = s.v := rfl
@[simp] theorem State.supplyByte_i (b : Byte) : (s.supplyByte b).i = s.i := rfl
@[simp] theorem State.supplyByte_pc (b : Byte) : (s.supplyByte b).pc = s.pc := rfl
@[simp] theorem State.supplyByte_sp (b : Byte) : (s.supplyByte b).sp = s.sp := rfl
@[simp] theorem State.supplyByte_stack (b : Byte) : (s.supplyByte b).stack = s.stack := rfl
@[simp] theorem State.supplyByte_dt (b : Byte) : (s.supplyByte b).dt = s.dt := rfl
@[simp] theorem State.supplyByte_st (b : Byte) : (s.supplyByte b).st = s.st := rfl
@[simp] theorem State.supplyByte_mem (b : Byte) : (s.supplyByte b).mem = s.mem := rfl
@[simp] theorem State.supplyByte_fb (b : Byte) : (s.supplyByte b).fb = s.fb := rfl
@[simp] theorem State.supplyByte_keys (b : Byte) : (s.supplyByte b).keys = s.keys := rfl
@[simp] theorem State.supplyByte_prevKeys (b : Byte) : (s.supplyByte b).prevKeys = s.prevKeys := rfl
@[simp] theorem State.supplyByte_fault (b : Byte) : (s.supplyByte b).fault = s.fault := rfl
@[simp] theorem State.supplyByte_params (b : Byte) : (s.supplyByte b).params = s.params := rfl
@[simp] theorem State.supplyByte_supplied (b : Byte) : (s.supplyByte b).supplied = s.supplied ++ [b] := rfl
@[simp] theorem State.supplyByte_draws (b : Byte) : (s.supplyByte b).draws = s.draws := rfl

/-! ### skipIf: only PC can change -/

@[simp] theorem State.skipIf_v (c : Bool) : (s.skipIf c).v = s.v := by cases c <;> rfl
@[simp] theorem State.skipIf_i (c : Bool) : (s.skipIf c).i = s.i := by cases c <;> rfl
@[simp] theorem State.skipIf_pc (c : Bool) : (s.skipIf c).pc = if c then s.pc + 2#16 else s.pc := by
  cases c <;> rfl
@[simp] theorem State.skipIf_sp (c : Bool) : (s.skipIf c).sp = s.sp := by cases c <;> rfl
@[simp] theorem State.skipIf_stack (c : Bool) : (s.skipIf c).stack = s.stack := by cases c <;> rfl
@[simp] theorem State.skipIf_dt (c : Bool) : (s.skipIf c).dt = s.dt := by cases c <;> rfl
@[simp] theorem State.skipIf_st (c : Bool) : (s.skipIf c).st = s.st := by cases c <;> rfl
@[simp] theorem State.skipIf_mem (c : Bool) : (s.skipIf c).mem = s.mem := by cases c <;> rfl
@[simp] theorem State.skipIf_fb (c : Bool) : (s.skipIf c).fb = s.fb := by cases c <;> rfl
@[simp] theorem State.skipIf_keys (c : Bool) : (s.skipIf c).keys = s.keys := by cases c <;> rfl
@[simp] theorem State.skipIf_prevKeys (c : Bool) : (s.skipIf c).prevKeys = s.prevKeys := by cases c <;> rfl
@[simp] theorem State.skipIf_fault (c : Bool) : (s.skipIf c).fault = s.fault := by cases c <;> rfl
@[simp] theorem State.skipIf_params (c : Bool) : (s.skipIf c).params = s.params := by cases c <;> rfl
@[simp] theorem State.skipIf_supplied (c : Bool) : (s.skipIf c).supplied = s.supplied := by cases c <;> rfl
@[simp] theorem State.skipIf_draws (c : Bool) : (s.skipIf c).draws = s.draws := by cases c <;> rfl

/-! ### storeFirst: only memory can change -/

@[simp] theorem State.storeFirst_v (n : Nat) : (s.storeFirst n).v = s.v := by
  induction n with
  | zero => rfl
  | succ k ih => simpa [State.storeFirst] using ih
@[simp] theorem State.storeFirst_i (n : Nat) : (s.storeFirst n).i = s.i := by
  induction n with
  | zero => rfl
  | succ k ih => simpa [State.storeFirst] using ih
@[simp] theorem State.storeFirst_pc (n : Nat) : (s.storeFirst n).pc = s.pc := by
  induction n with
  | zero => rfl
  | succ k ih => simpa [State.storeFirst] using ih
@[simp] theorem State.storeFirst_sp (n : Nat) : (s.storeFirst n).sp = s.sp := by
  induction n with
  | zero => rfl
  | succ k ih => simpa [State.storeFirst] using ih
@[simp] theorem State.storeFirst_stack (n : Nat) : (s.storeFirst n).stack = s.stack := by
  induction n with
  | zero => rfl
  | succ k ih => simpa [State.storeFirst] using ih
@[simp] theorem State.storeFirst_dt (n : Nat) : (s.storeFirst n).dt = s.dt := by
  induction n with
  | zero => rfl
  | succ k ih => simpa [State.storeFirst] using ih
@[simp] theorem State.storeFirst_st (n : Nat) : (s.storeFirst n).st = s.st := by
  induction n with
  | zero => rfl
  | succ k ih => simpa [State.storeFirst] using ih
@[simp] theorem State.storeFirst_fb (n : Nat) : (s.storeFirst n).fb = s.fb := by
  induction n with
  | zero => rfl
  | succ k ih => simpa [State.storeFirst] using ih
@[simp] theorem State.storeFirst_keys (n : Nat) : (s.storeFirst n).keys = s.keys := by
  induction n with
  | zero => rfl
  | succ k ih => simpa [State.storeFirst] using ih
@[simp] theorem State.storeFirst_prevKeys (n : Nat) : (s.storeFirst n).prevKeys = s.prevKeys := by
  induction n with
  | zero => rfl
  | succ k ih => simpa [State.storeFirst] using ih
@[simp] theorem State.storeFirst_fault (n : Nat) : (s.storeFirst n).fault = s.fault := by
  induction n with
  | zero => rfl
  | succ k ih => simpa [State.storeFirst] using ih
@[simp] theorem State.storeFirst_params (n : Nat) : (s.storeFirst n).params = s.params := by
  induction n with
  | zero => rfl
  | succ k ih => simpa [State.storeFirst] using ih
@[simp] theorem State.storeFirst_supplied (n : Nat) : (s.storeFirst n).supplied = s.supplied := by
  induction n with
  | zero => rfl
  | succ k ih => simpa [State.storeFirst] using ih
@[simp] theorem State.storeFirst_draws (n : Nat) : (s.storeFirst n).draws = s.draws := by
  induction n with
  | zero => rfl
  | succ k ih => simpa [State.storeFirst] using ih

/-! ### loadFirst: only the V registers can change -/

@[simp] theorem State.loadFirst_i (n : Nat) : (s.loadFirst n).i = s.i := by
  induction n with
  | zero => rfl
  | succ k ih => simpa [State.loadFirst] using ih
@[simp] theorem State.loadFirst_pc (n : Nat) : (s.loadFirst n).pc = s.pc := by
  induction n with
  | zero => rfl
  | succ k ih => simpa [State.loadFirst] using ih
@[simp] theorem State.loadFirst_sp (n : Nat) : (s.loadFirst n).sp = s.sp := by
  induction n with
  | zero => rfl
  | succ k ih => simpa [State.loadFirst] using ih
@[simp] theorem State.loadFirst_stack (n : Nat) : (s.loadFirst n).stack = s.stack := by
  induction n with
  | zero => rfl
  | succ k ih => simpa [State.loadFirst] using ih
@[simp] theorem State.loadFirst_dt (n : Nat) : (s.loadFirst n).dt = s.dt := by
  induction n with
  | zero => rfl
  | succ k ih => simpa [State.loadFirst] using ih
@[simp] theorem State.loadFirst_st (n : Nat) : (s.loadFirst n).st = s.st := by
  induction n with
  | zero => rfl
  | succ k ih => simpa [State.loadFirst] using ih
@[simp] theorem State.loadFirst_mem (n : Nat) : (s.loadFirst n).mem = s.mem := by
  induction n with
  | zero => rfl
  | succ k ih => simpa [State.loadFirst] using ih
@[simp] theorem State.loadFirst_fb (n : Nat) : (s.loadFirst n).fb = s.fb := by
  induction n with
  | zero => rfl
  | succ k ih => simpa [State.loadFirst] using ih
@[simp] theorem State.loadFirst_keys (n : Nat) : (s.loadFirst n).keys = s.keys := by
  induction n with
  | zero => rfl
  | succ k ih => simpa [State.loadFirst] using ih
@[simp] theorem State.loadFirst_prevKeys (n : Nat) : (s.loadFirst n).prevKeys = s.prevKeys := by
  induction n with
  | zero => rfl
  | succ k ih => simpa [State.loadFirst] using ih
@[simp] theorem State.loadFirst_fault (n : Nat) : (s.loadFirst n).fault = s.fault := by
  induction n with
  | zero => rfl
  | succ k ih => simpa [State.loadFirst] using ih
@[simp] theorem State.loadFirst_params (n : Nat) : (s.loadFirst n).params = s.params := by
  induction n with
  | zero => rfl
  | succ k ih => simpa [State.loadFirst] using ih
@[simp] theorem State.loadFirst_supplied (n : Nat) : (s.loadFirst n).supplied = s.supplied := by
  induction n with
  | zero => rfl
  | succ k ih => simpa [State.loadFirst] using ih
@[simp] theorem State.loadFirst_draws (n : Nat) : (s.loadFirst n).draws = s.draws := by
  induction n with
  | zero => rfl
  | succ k ih => simpa [State.loadFirst] using ih

/-! ### resetWith -/

@[simp] theorem State.resetWith_v (p : Params) : (State.resetWith p).v = Vector.replicate 16 0x00#8 := rfl
@[simp] theorem State.resetWith_i (p : Params) : (State.resetWith p).i = 0x0000#16 := rfl
@[simp] theorem State.resetWith_pc (p : Params) : (State.resetWith p).pc = 0x0200#16 := rfl
@[simp] theorem State.resetWith_sp (p : Params) : (State.resetWith p).sp = 0#8 := rfl
@[simp] theorem State.resetWith_stack (p : Params) : (State.resetWith p).stack = Vector.replicate 16 0x0000#16 := rfl
@[simp] theorem State.resetWith_dt (p : Params) : (State.resetWith p).dt = 0x00#8 := rfl
@[simp] theorem State.resetWith_st (p : Params) : (State.resetWith p).st = 0x00#8 := rfl
@[simp] theorem State.resetWith_mem (p : Params) : (State.resetWith p).mem = [] := rfl
@[simp] theorem State.resetWith_fb (p : Params) : (State.resetWith p).fb = Vector.replicate 32 0#64 := rfl
@[simp] theorem State.resetWith_keys (p : Params) : (State.resetWith p).keys = Vector.replicate 16 false := rfl
@[simp] theorem State.resetWith_prevKeys (p : Params) : (State.resetWith p).prevKeys = Vector.replicate 16 false := rfl
@[simp] theorem State.resetWith_fault (p : Params) : (State.resetWith p).fault = none := rfl
@[simp] theorem State.resetWith_params (p : Params) : (State.resetWith p).params = p := rfl
@[simp] theorem State.resetWith_supplied (p : Params) : (State.resetWith p).supplied = [] := rfl
@[simp] theorem State.resetWith_draws (p : Params) : (State.resetWith p).draws = 0 := rfl

/-! ### restart: everything but the parameters and the provider's fields is at its reset value -/

@[simp] theorem State.restart_v : s.restart.v = (State.resetWith s.params).v := rfl
@[simp] theorem State.restart_i : s.restart.i = (State.resetWith s.params).i := rfl
@[simp] theorem State.restart_pc : s.restart.pc = (State.resetWith s.params).pc := rfl
@[simp] theorem State.restart_sp : s.restart.sp = (State.resetWith s.params).sp := rfl
@[simp] theorem State.restart_stack : s.restart.stack = (State.resetWith s.params).stack := rfl
@[simp] theorem State.restart_dt : s.restart.dt = (State.resetWith s.params).dt := rfl
@[simp] theorem State.restart_st : s.restart.st = (State.resetWith s.params).st := rfl
@[simp] theorem State.restart_mem : s.restart.mem = (State.resetWith s.params).mem := rfl
@[simp] theorem State.restart_fb : s.restart.fb = (State.resetWith s.params).fb := rfl
@[simp] theorem State.restart_keys : s.restart.keys = (State.resetWith s.params).keys := rfl
@[simp] theorem State.restart_prevKeys : s.restart.prevKeys = (State.resetWith s.params).prevKeys := rfl
@[simp] theorem State.restart_fault : s.restart.fault = (State.resetWith s.params).fault := rfl
@[simp] theorem State.restart_params : s.restart.params = s.params := rfl
@[simp] theorem State.restart_supplied : s.restart.supplied = s.supplied := rfl
@[simp] theorem State.restart_draws : s.restart.draws = s.draws := rfl

end Sys2Proof.Machine
end

