-- ==== Sys2Proof/Laws/Ops.lean ====
section
/-! SUPPORT. What each shared operation can do, said once: registers, memory bytes, block transfers, the stack, the key edge, the
sprite, and the taking of a fatal condition. Later proofs cite these and unfold none of the operations. -/

namespace Sys2Proof.Machine

/-! ### Registers -/

@[simp] theorem State.readV_setV (s : State) (x r : Reg) (b : Byte) :
    (s.setV x b).readV r = if x = r then b else s.readV r := by
  simp [State.readV, State.setV, Vector.getElem_set, BitVec.toNat_inj]

/-- An update that keeps the register file keeps every register. -/
theorem State.readV_eq_of_v_eq {s t : State} (h : t.v = s.v) (r : Reg) : t.readV r = s.readV r := by
  simp [State.readV, h]

@[simp] theorem State.readV_setResultAndFlag (s : State) (x r : Reg) (result flag : Byte) :
    (s.setResultAndFlag x result flag).readV r = if vf = r then flag else if x = r then result else s.readV r := by
  simp [State.setResultAndFlag]

/-! ### Memory bytes -/

/-- Two offsets within one turn of the address space give different addresses. -/
theorem ea_injective {i : Word} {j k : Nat} (hj : j < 4096) (hk : k < 4096) (h : ea i j = ea i k) : j = k := by
  have := congrArg BitVec.toNat h
  simp [ea, mask12, BitVec.toNat_setWidth, BitVec.toNat_add] at this
  omega

theorem State.memRead_memWrite_same {s : State} (hs : s.mem.wf s.params = true) (a : Addr) (b : Byte) :
    (s.memWrite a b).memRead a = b := Memory.read_write_same hs a b

theorem State.memRead_memWrite_other (s : State) {a c : Addr} (b : Byte) (h : c ≠ a) :
    (s.memWrite a b).memRead c = s.memRead c := Memory.read_write_other s.mem b h

/-- A stored byte keeps the canonical form of memory. -/
theorem State.memWrite_wf {s : State} (hs : s.mem.wf s.params = true) (a : Addr) (b : Byte) :
    (s.memWrite a b).mem.wf (s.memWrite a b).params = true := Memory.wf_write hs a b

/-- An update that keeps memory and the parameters keeps every byte. -/
theorem State.memRead_eq_of_mem_eq {s t : State} (h : t.mem = s.mem) (hp : t.params = s.params) (a : Addr) : t.memRead a = s.memRead a := by
  simp [State.memRead, h, hp]

/-! ### Block transfers -/

theorem State.storeFirst_wf {s : State} (hs : s.mem.wf s.params = true) (n : Nat) :
    (s.storeFirst n).mem.wf (s.storeFirst n).params = true := by
  induction n with
  | zero => exact hs
  | succ k ih => exact State.memWrite_wf ih _ _

/-- Outside the `n` bytes from `I`, a block store leaves memory alone. -/
theorem State.memRead_storeFirst_other (s : State) {n : Nat} {a : Addr} (h : ∀ k, k < n → a ≠ ea s.i k) :
    (s.storeFirst n).memRead a = s.memRead a := by
  induction n with
  | zero => rfl
  | succ k ih =>
    rw [State.storeFirst, State.memRead_memWrite_other _ _ (h k (by omega))]
    exact ih fun j hj => h j (by omega)

/-- Byte `k` of a block store is register `k`. -/
theorem State.memRead_storeFirst {s : State} (hs : s.mem.wf s.params = true) {n k : Nat} (hn : n ≤ 16) (hk : k < n) :
    (s.storeFirst n).memRead (ea s.i k) = s.readV (BitVec.ofNat 4 k) := by
  induction n with
  | zero => omega
  | succ m ih =>
    rw [State.storeFirst]
    by_cases hkm : k = m
    · subst hkm
      exact State.memRead_memWrite_same (State.storeFirst_wf hs k) _ _
    · rw [State.memRead_memWrite_other _ _ fun e => hkm (ea_injective (by omega) (by omega) e)]
      exact ih (by omega) (by omega)

/-- A block load of `n` registers: those below `n` come from memory, the others stay. -/
theorem State.readV_loadFirst (s : State) {n : Nat} (hn : n ≤ 16) (r : Reg) :
    (s.loadFirst n).readV r = if r.toNat < n then s.memRead (ea s.i r.toNat) else s.readV r := by
  induction n with
  | zero => simp [State.loadFirst]
  | succ k ih =>
    rw [State.loadFirst, State.readV_setV, ih (by omega)]
    by_cases h : BitVec.ofNat 4 k = r
    · subst h
      have hk : k % 16 = k := Nat.mod_eq_of_lt (by omega)
      simp [hk]
    · have hne : r.toNat ≠ k := fun e => h (by subst e; simp)
      have hiff : r.toNat < k + 1 ↔ r.toNat < k := by omega
      simp [h, hiff]

/-! ### The call stack -/

/-- On a stack that is not full, what was pushed is on top. -/
theorem State.top_push {s : State} (w : Word) (h : s.sp.toNat < 16) : (s.push w).top = some w := by
  have h1 : (s.sp + 1#8).toNat = s.sp.toNat + 1 := by
    rw [BitVec.toNat_add]; simp; omega
  simp [State.top, State.push, h1, h]

/-! ### The key edge -/

theorem State.firstEdge_eq_none {s : State} : s.firstEdge = none ↔ ∀ k : Key, s.keyEdge k = false := by
  simp only [State.firstEdge, List.find?_eq_none, List.mem_range, Bool.not_eq_true]
  constructor
  · intro h k
    simpa using h k.toNat k.isLt
  · intro h k _
    exact h _

/-- The key found has an edge and every lower one has none. -/
theorem State.firstEdge_eq_some {s : State} {j : Key} (hj : s.keyEdge j = true)
    (hlow : ∀ k : Key, k.toNat < j.toNat → s.keyEdge k = false) : s.firstEdge = some j.toNat := by
  simp only [State.firstEdge, List.find?_range_eq_some, Bool.not_eq_true', List.mem_range]
  refine ⟨by simpa using hj, j.isLt, fun k hk => ?_⟩
  exact hlow _ (by simpa [Nat.mod_eq_of_lt (show k < 16 by have := j.isLt; omega)] using hk)

/-! ### The sprite (44_graphics.md R211) -/

theorem Display.pixel_toggle (fb : Display) (y y' : Fin 32) (x x' : Fin 64) :
    (fb.toggle y x).pixel y' x' = (fb.pixel y' x' ^^ (decide (y' = y) && decide (x' = x))) := by
  unfold Display.pixel Display.toggle
  rw [Vector.getElem_set]
  by_cases hy : y = y'
  · subst hy
    simp [Fin.ext_iff]
  · have : ¬ y.val = y'.val := fun e => hy (Fin.ext e)
    have hy' : ¬ y' = y := fun e => hy e.symm
    simp [this, hy']

/-- A sprite row covers a pixel with one of its first `n` bits. -/
def RowCovers (b x0 : Byte) (y : Fin 32) (n : Nat) (row : Fin 32) (col : Fin 64) : Prop :=
  row = y ∧ ∃ c, c < n ∧ spriteBit b c = true ∧ col = spriteColumn x0 c

theorem spriteColumn_injective {x0 : Byte} {c d : Nat} (hc : c < 64) (hd : d < 64)
    (h : spriteColumn x0 c = spriteColumn x0 d) : c = d := by
  have := congrArg Fin.val h
  simp [spriteColumn, Fin.ofNat] at this
  omega

theorem spriteRow_injective {y0 : Byte} {c d : Nat} (hc : c < 32) (hd : d < 32)
    (h : spriteRow y0 c = spriteRow y0 d) : c = d := by
  have := congrArg Fin.val h
  simp [spriteRow, Fin.ofNat] at this
  omega

/-- The first `n` bits of a sprite row invert exactly the pixels they cover. -/
theorem Canvas.pixel_drawBits (b x0 : Byte) (y : Fin 32) {n : Nat} (hn : n ≤ 8) (d : Canvas) (row : Fin 32) (col : Fin 64) :
    ((Canvas.drawBits b x0 y n d).fb.pixel row col ≠ d.fb.pixel row col) ↔ RowCovers b x0 y n row col := by
  induction n with
  | zero => simp [Canvas.drawBits, RowCovers]
  | succ c ih =>
    have ih := ih (by omega)
    rw [Canvas.drawBits]
    by_cases hb : spriteBit b c = true
    · simp only [hb, if_true, Canvas.blit, Display.pixel_toggle]
      by_cases hp : row = y ∧ col = spriteColumn x0 c
      · obtain ⟨hr, hcol⟩ := hp
        have hnot : ¬ RowCovers b x0 y c row col := by
          rintro ⟨_, e, he, _, hce⟩
          have := spriteColumn_injective (x0 := x0) (c := c) (d := e) (by omega) (by omega) (hcol ▸ hce)
          omega
        have heq := not_not.mp (mt ih.mp hnot)
        rw [heq]
        simp only [hr, hcol, decide_true, Bool.and_self, Bool.xor_true]
        simp only [ne_eq, Bool.not_eq_eq_eq_not, Bool.eq_not_self, not_false_eq_true, true_iff]
        exact ⟨rfl, c, by omega, hb, rfl⟩
      · have hf : (decide (row = y) && decide (col = spriteColumn x0 c)) = false := by
          simpa [Bool.and_eq_false_iff, not_and_or] using hp
        rw [hf, Bool.xor_false]
        refine ih.trans ⟨fun ⟨h1, e, he, h2, h3⟩ => ⟨h1, e, by omega, h2, h3⟩, fun ⟨h1, e, he, h2, h3⟩ => ⟨h1, e, ?_, h2, h3⟩⟩
        rcases Nat.lt_succ_iff_lt_or_eq.mp he with h | h
        · exact h
        · exact absurd ⟨h1, h ▸ h3⟩ hp
    · simp only [hb, if_false, Bool.false_eq_true]
      refine ih.trans ⟨fun ⟨h1, e, he, h2, h3⟩ => ⟨h1, e, by omega, h2, h3⟩, fun ⟨h1, e, he, h2, h3⟩ => ⟨h1, e, ?_, h2, h3⟩⟩
      rcases Nat.lt_succ_iff_lt_or_eq.mp he with h | h
      · exact h
      · exact absurd (h ▸ h2) hb

/-- A collision so far, or a covered pixel that was on. -/
theorem Canvas.hit_drawBits (b x0 : Byte) (y : Fin 32) {n : Nat} (hn : n ≤ 8) (d : Canvas) :
    (Canvas.drawBits b x0 y n d).hit = true ↔
      d.hit = true ∨ ∃ row col, RowCovers b x0 y n row col ∧ d.fb.pixel row col = true := by
  induction n with
  | zero => simp [Canvas.drawBits, RowCovers]
  | succ c ih =>
    have ih := ih (by omega)
    rw [Canvas.drawBits]
    by_cases hb : spriteBit b c = true
    · simp only [hb, if_true, Canvas.blit, Bool.or_eq_true, ih]
      have hsame : (Canvas.drawBits b x0 y c d).fb.pixel y (spriteColumn x0 c) = d.fb.pixel y (spriteColumn x0 c) := by
        by_contra hne
        obtain ⟨_, e, he, _, hce⟩ := (Canvas.pixel_drawBits b x0 y (by omega) d _ _).mp hne
        have := spriteColumn_injective (x0 := x0) (c := c) (d := e) (by omega) (by omega) hce
        omega
      rw [hsame]
      constructor
      · rintro ((h | ⟨row, col, ⟨h1, e, he, h2, h3⟩, hp⟩) | h)
        · exact Or.inl h
        · exact Or.inr ⟨row, col, ⟨h1, e, by omega, h2, h3⟩, hp⟩
        · exact Or.inr ⟨y, spriteColumn x0 c, ⟨rfl, c, by omega, hb, rfl⟩, h⟩
      · rintro (h | ⟨row, col, ⟨h1, e, he, h2, h3⟩, hp⟩)
        · exact Or.inl (Or.inl h)
        · rcases Nat.lt_succ_iff_lt_or_eq.mp he with h | h
          · exact Or.inl (Or.inr ⟨row, col, ⟨h1, e, h, h2, h3⟩, hp⟩)
          · subst h; subst h1; subst h3; exact Or.inr hp
    · simp only [hb, if_false, Bool.false_eq_true, ih]
      refine or_congr_right ⟨?_, ?_⟩
      · rintro ⟨row, col, ⟨h1, e, he, h2, h3⟩, hp⟩
        exact ⟨row, col, ⟨h1, e, by omega, h2, h3⟩, hp⟩
      · rintro ⟨row, col, ⟨h1, e, he, h2, h3⟩, hp⟩
        rcases Nat.lt_succ_iff_lt_or_eq.mp he with h | h
        · exact ⟨row, col, ⟨h1, e, h, h2, h3⟩, hp⟩
        · exact absurd (h ▸ h2) hb

/-- The first `n` rows of a sprite invert exactly the pixels they cover (44_graphics.md R211). -/
theorem State.pixel_drawRows (s : State) (x0 y0 : Byte) {n : Nat} (hn : n ≤ 15) (row : Fin 32) (col : Fin 64) :
    (Display.pixel (s.drawRows x0 y0 n).fb row col ≠ s.pixel row col) ↔ s.SpriteCovers x0 y0 n row col := by
  induction n with
  | zero => simp [State.drawRows, State.pixel, State.SpriteCovers]
  | succ r ih =>
    have ih := ih (by omega)
    have h := Canvas.pixel_drawBits (s.memRead (ea s.i r)) x0 (spriteRow y0 r) (n := 8) (by omega) (s.drawRows x0 y0 r) row col
    rw [State.drawRows]
    by_cases hc : RowCovers (s.memRead (ea s.i r)) x0 (spriteRow y0 r) 8 row col
    · have hne := h.mpr hc
      have hnot : ¬ s.SpriteCovers x0 y0 r row col := by
        rintro ⟨r', c, hr', hc', hrow, -, -⟩
        obtain ⟨hrow', -⟩ := hc
        have := congrArg Fin.val hrow'
        simp [spriteRow, Fin.ofNat] at this
        omega
      have heq := not_not.mp (mt ih.mp hnot)
      rw [heq] at hne
      refine ⟨fun _ => ?_, fun _ => hne⟩
      obtain ⟨hrow, c, hc', hb, hcol⟩ := hc
      refine ⟨r, c, by omega, hc', ?_, ?_, hb⟩
      · have := congrArg Fin.val hrow; simpa [spriteRow, Fin.ofNat] using this
      · have := congrArg Fin.val hcol; simpa [spriteColumn, Fin.ofNat] using this
    · have heq := not_not.mp (mt h.mp hc)
      rw [heq, ih]
      constructor
      · rintro ⟨r', c, h1, h2⟩; exact ⟨r', c, by omega, h2⟩
      · rintro ⟨r', c, h1, h2, h3, h4, h5⟩
        refine ⟨r', c, ?_, h2, h3, h4, h5⟩
        rcases Nat.lt_succ_iff_lt_or_eq.mp h1 with h | h
        · exact h
        · subst h
          exact absurd ⟨Fin.ext (by simpa [spriteRow, Fin.ofNat] using h3), c, h2, h5, Fin.ext (by simpa [spriteColumn, Fin.ofNat] using h4)⟩ hc

/-- They collide exactly when a covered pixel was on. -/
theorem State.hit_drawRows (s : State) (x0 y0 : Byte) {n : Nat} (hn : n ≤ 15) :
    ((s.drawRows x0 y0 n).hit = true) ↔ ∃ row col, s.SpriteCovers x0 y0 n row col ∧ s.pixel row col = true := by
  induction n with
  | zero => simp [State.drawRows, State.SpriteCovers]
  | succ r ih =>
    have ih := ih (by omega)
    rw [State.drawRows, Canvas.hit_drawBits _ _ _ (by omega), ih]
    constructor
    · rintro (⟨row, col, ⟨r', c, h1, h2⟩, hp⟩ | ⟨row, col, ⟨hrow, c, hc', hb, hcol⟩, hp⟩)
      · exact ⟨row, col, ⟨r', c, by omega, h2⟩, hp⟩
      · have hnot : ¬ s.SpriteCovers x0 y0 r row col := by
          rintro ⟨r', c, hr', hc', hrow', -, -⟩
          have := congrArg Fin.val hrow
          simp [spriteRow, Fin.ofNat] at this
          omega
        have heq := not_not.mp (mt (State.pixel_drawRows s x0 y0 (n := r) (by omega) row col).mp hnot)
        refine ⟨row, col, ⟨r, c, by omega, hc', ?_, ?_, hb⟩, heq ▸ hp⟩
        · have := congrArg Fin.val hrow; simpa [spriteRow, Fin.ofNat] using this
        · have := congrArg Fin.val hcol; simpa [spriteColumn, Fin.ofNat] using this
    · rintro ⟨row, col, ⟨r', c, h1, h2, h3, h4, h5⟩, hp⟩
      rcases Nat.lt_succ_iff_lt_or_eq.mp h1 with h | h
      · exact Or.inl ⟨row, col, ⟨r', c, h, h2, h3, h4, h5⟩, hp⟩
      · subst h
        have hnot : ¬ s.SpriteCovers x0 y0 r' row col := by
          rintro ⟨r'', c, hr', hc', hrow', -, -⟩
          omega
        have heq := not_not.mp (mt (State.pixel_drawRows s x0 y0 (n := r') (by omega) row col).mp hnot)
        exact Or.inr ⟨row, col, ⟨Fin.ext (by simpa [spriteRow, Fin.ofNat] using h3), c, h2, h5, Fin.ext (by simpa [spriteColumn, Fin.ofNat] using h4)⟩, heq.symm ▸ hp⟩

/-! ### Taking a fatal condition -/

/-- Everything `takeFault` can do: a next state that is the given one with the record latched. -/
theorem takeFault_eq_next {s t : State} {r : FaultRecord} : takeFault s r = .next t ↔ t = { s with fault := some r } := by
  simp [takeFault, eq_comm]

@[simp] theorem State.rewind_advance (s : State) : s.advance.rewind = s := by
  have : s.pc + 2#16 - 2#16 = s.pc := by bv_omega
  simp [State.advance, State.rewind, State.setPc, this]

/-- Taken inside an instruction, a fatal condition gives the state before the fetch with the record latched, and the record
carries the address of that fetch. -/
theorem raiseInExecute_advance (s : State) (record : Word → FaultRecord) :
    raiseInExecute s.advance record = .next { s with fault := some (record s.pc) } := by
  simp [raiseInExecute, takeFault]

/-! ### The step -/

/-- The step of a state that can fetch and whose word decodes is the commit of the instruction's meaning. -/
theorem step_eq_commit {s : State} {i : Instr} (hf : s.fault = none) (hp : s.pc.toNat ≤ 0x0FFF)
    (hd : decode s.fetchWord = .instr i) : step s = commit s (exec i s.advance) := by
  have hp' : ¬ 0x0FFF < s.pc.toNat := by omega
  simp only [step, State.frontEnd, hf, hp', if_false, hd]

/-- Everything one step that answers a next state can do: it took `PcOutOfRange`, or `UnknownOpcode`, or it ran the decoded
instruction and committed. -/
theorem step_cases {s t : State} (h : step s = .next t) :
    s.fault = none ∧
    ((0x0FFF < s.pc.toNat ∧ t = { s with fault := some (.pcOutOfRange s.pc) }) ∨
     (s.pc.toNat ≤ 0x0FFF ∧ ∃ w, decode s.fetchWord = .unknown w ∧ t = { s with fault := some (.unknownOpcode w s.pc) }) ∨
     (s.pc.toNat ≤ 0x0FFF ∧ ∃ i u, decode s.fetchWord = .instr i ∧ exec i s.advance = .next u ∧
        ((u.fault = none ∧ t = { u with prevKeys := s.keys }) ∨ (u.fault ≠ none ∧ t = u)))) := by
  unfold step State.frontEnd at h
  cases hf : s.fault with
  | some r => simp [hf] at h
  | none =>
    refine ⟨rfl, ?_⟩
    simp only [hf] at h
    by_cases hpc : 0x0FFF < s.pc.toNat
    · simp only [hpc, if_true] at h
      exact Or.inl ⟨hpc, takeFault_eq_next.mp h⟩
    · simp only [hpc, if_false] at h
      cases hd : decode s.fetchWord with
      | unknown w =>
        simp only [hd] at h
        exact Or.inr (Or.inl ⟨by omega, w, rfl, takeFault_eq_next.mp h⟩)
      | instr i =>
        simp only [hd] at h
        refine Or.inr (Or.inr ⟨by omega, i, ?_⟩)
        cases he : exec i s.advance with
        | fault r => simp [he, commit] at h
        | refused r => simp [he, commit] at h
        | next u =>
          refine ⟨u, rfl, rfl, ?_⟩
          simp only [he, commit] at h
          cases hu : u.fault with
          | none =>
            simp only [hu, Host.Outcome.next.injEq] at h
            exact Or.inl ⟨rfl, h.symm⟩
          | some r =>
            simp only [hu, Host.Outcome.next.injEq] at h
            exact Or.inr ⟨by simp, h.symm⟩

end Sys2Proof.Machine
end

