-- ==== Sys2Proof/Laws/Boundary.lean ====
section
/-! SUPPORT. The laws of the boundary operations: what the copy of a program image writes, and what a tick does to a timer. -/

namespace Sys2Proof.Machine

/-- One timer after a tick. -/
theorem toNat_countDown (b : Byte) : (countDown b).toNat = b.toNat - 1 := by
  unfold countDown
  split
  · next h => subst h; rfl
  · next h =>
    have hb := b.isLt
    have h0 : b.toNat ≠ 0 := fun e => h (BitVec.eq_of_toNat_eq e)
    rw [BitVec.toNat_sub]
    simp
    omega

theorem copyImage_wf {s : State} (hs : s.mem.wf s.params = true) (a : Nat) (bytes : List Byte) :
    (copyImage a bytes s).mem.wf (copyImage a bytes s).params = true := by
  induction bytes generalizing a s with
  | nil => exact hs
  | cons b rest ih => exact ih (State.memWrite_wf hs _ _) _

/-- The copy changes memory alone. -/
theorem copyImage_eq (a : Nat) (bytes : List Byte) (s : State) :
    copyImage a bytes s = { s with mem := (copyImage a bytes s).mem } := by
  induction bytes generalizing a s with
  | nil => rfl
  | cons b rest ih => rw [copyImage, ih]; rfl

/-- Outside the bytes it writes, the copy leaves memory alone. -/
theorem memRead_copyImage_other (s : State) {a : Nat} {bytes : List Byte} {c : Addr}
    (h : c.toNat < a ∨ a + bytes.length ≤ c.toNat) (hfit : a + bytes.length ≤ 4096) :
    (copyImage a bytes s).memRead c = s.memRead c := by
  induction bytes generalizing a s with
  | nil => rfl
  | cons b rest ih =>
    simp only [List.length_cons] at h hfit
    have hne : c ≠ BitVec.ofNat 12 a := fun e => by
      have := congrArg BitVec.toNat e
      rw [BitVec.toNat_ofNat, Nat.mod_eq_of_lt (by omega)] at this
      omega
    rw [copyImage, ih (a := a + 1) (s.memWrite _ b) (by omega) (by omega), State.memRead_memWrite_other _ _ hne]

/-- Byte k of the image is at k addresses above the start. -/
theorem memRead_copyImage {s : State} (hs : s.mem.wf s.params = true) {a : Nat} {bytes : List Byte} (hfit : a + bytes.length ≤ 4096)
    (k : Nat) (hk : k < bytes.length) : (copyImage a bytes s).memRead (BitVec.ofNat 12 (a + k)) = bytes[k] := by
  induction bytes generalizing a s k with
  | nil => exact absurd hk (by simp)
  | cons b rest ih =>
    simp only [List.length_cons] at hk hfit
    cases k with
    | zero =>
      have hl : (BitVec.ofNat 12 (a + 0)).toNat < a + 1 := by
        rw [BitVec.toNat_ofNat, Nat.mod_eq_of_lt (by omega)]; omega
      rw [copyImage, memRead_copyImage_other _ (Or.inl hl) (by omega)]
      exact State.memRead_memWrite_same hs _ _
    | succ j =>
      have := ih (s := s.memWrite (BitVec.ofNat 12 a) b) (a := a + 1) (State.memWrite_wf hs _ _) (by omega) j (by omega)
      rw [show a + (j + 1) = a + 1 + j by omega]
      simpa [copyImage] using this

end Sys2Proof.Machine
end

