-- ==== Sys2Proof/Laws/Encoding.lean ====
section
/-! SUPPORT. The fields of an encoded word, and a word taken apart: each field of 30_encoding.md R91 of each format of R92. -/

namespace Sys2Proof

@[simp] theorem opField_encodeNNN (op : Nibble) (nnn : Addr) : opField (encodeNNN op nnn) = op := by
  apply BitVec.eq_of_getLsbD_eq
  intro k hk
  simp only [opField, encodeNNN, BitVec.getLsbD_append, BitVec.getLsbD_extractLsb']
  interval_cases k <;> simp

@[simp] theorem nnnField_encodeNNN (op : Nibble) (nnn : Addr) : nnnField (encodeNNN op nnn) = nnn := by
  apply BitVec.eq_of_getLsbD_eq
  intro k hk
  simp only [nnnField, encodeNNN, BitVec.getLsbD_append, BitVec.getLsbD_extractLsb']
  interval_cases k <;> simp

@[simp] theorem opField_encodeXNN (op : Nibble) (x : Reg) (nn : Byte) : opField (encodeXNN op x nn) = op := by
  apply BitVec.eq_of_getLsbD_eq
  intro k hk
  simp only [opField, encodeXNN, BitVec.getLsbD_append, BitVec.getLsbD_extractLsb']
  interval_cases k <;> simp

@[simp] theorem xField_encodeXNN (op : Nibble) (x : Reg) (nn : Byte) : xField (encodeXNN op x nn) = x := by
  apply BitVec.eq_of_getLsbD_eq
  intro k hk
  simp only [xField, encodeXNN, BitVec.getLsbD_append, BitVec.getLsbD_extractLsb']
  interval_cases k <;> simp

@[simp] theorem nnField_encodeXNN (op : Nibble) (x : Reg) (nn : Byte) : nnField (encodeXNN op x nn) = nn := by
  apply BitVec.eq_of_getLsbD_eq
  intro k hk
  simp only [nnField, encodeXNN, BitVec.getLsbD_append, BitVec.getLsbD_extractLsb']
  interval_cases k <;> simp

@[simp] theorem opField_encodeXYN (op : Nibble) (x y : Reg) (n : Nibble) : opField (encodeXYN op x y n) = op := by
  apply BitVec.eq_of_getLsbD_eq
  intro k hk
  simp only [opField, encodeXYN, BitVec.getLsbD_append, BitVec.getLsbD_extractLsb']
  interval_cases k <;> simp

@[simp] theorem xField_encodeXYN (op : Nibble) (x y : Reg) (n : Nibble) : xField (encodeXYN op x y n) = x := by
  apply BitVec.eq_of_getLsbD_eq
  intro k hk
  simp only [xField, encodeXYN, BitVec.getLsbD_append, BitVec.getLsbD_extractLsb']
  interval_cases k <;> simp

@[simp] theorem yField_encodeXYN (op : Nibble) (x y : Reg) (n : Nibble) : yField (encodeXYN op x y n) = y := by
  apply BitVec.eq_of_getLsbD_eq
  intro k hk
  simp only [yField, encodeXYN, BitVec.getLsbD_append, BitVec.getLsbD_extractLsb']
  interval_cases k <;> simp

@[simp] theorem nField_encodeXYN (op : Nibble) (x y : Reg) (n : Nibble) : nField (encodeXYN op x y n) = n := by
  apply BitVec.eq_of_getLsbD_eq
  intro k hk
  simp only [nField, encodeXYN, BitVec.getLsbD_append, BitVec.getLsbD_extractLsb']
  interval_cases k <;> simp

/-- A word is its family and its low 12 bits. -/
theorem encodeNNN_fields (w : Word) : encodeNNN (opField w) (nnnField w) = w := by
  apply BitVec.eq_of_getLsbD_eq
  intro k hk
  simp only [encodeNNN, opField, nnnField, BitVec.getLsbD_append, BitVec.getLsbD_extractLsb']
  interval_cases k <;> simp

/-- A word is its family, X and its low byte. -/
theorem encodeXNN_fields (w : Word) : encodeXNN (opField w) (xField w) (nnField w) = w := by
  apply BitVec.eq_of_getLsbD_eq
  intro k hk
  simp only [encodeXNN, opField, xField, nnField, BitVec.getLsbD_append, BitVec.getLsbD_extractLsb']
  interval_cases k <;> simp

/-- A word is its four nibbles. -/
theorem encodeXYN_fields (w : Word) : encodeXYN (opField w) (xField w) (yField w) (nField w) = w := by
  apply BitVec.eq_of_getLsbD_eq
  intro k hk
  simp only [encodeXYN, opField, xField, yField, nField, BitVec.getLsbD_append, BitVec.getLsbD_extractLsb']
  interval_cases k <;> simp

/-- A word is its two bytes. -/
@[simp] theorem wordOfBytes_high_low (w : Word) : wordOfBytes (highByte w) (lowByte w) = w := by
  apply BitVec.eq_of_getLsbD_eq
  intro k hk
  simp only [wordOfBytes, highByte, lowByte, BitVec.getLsbD_append, BitVec.getLsbD_extractLsb']
  interval_cases k <;> simp

/-- The value of a word made of two bytes. -/
theorem toNat_wordOfBytes (hi lo : Byte) : (wordOfBytes hi lo).toNat = 256 * hi.toNat + lo.toNat := by
  have h := lo.isLt
  rw [wordOfBytes, BitVec.toNat_append, ← Nat.shiftLeft_add_eq_or_of_lt h, Nat.shiftLeft_eq]
  omega

/-- The value of a word of format NNN. -/
theorem toNat_encodeNNN (op : Nibble) (nnn : Addr) : (encodeNNN op nnn).toNat = 0x1000 * op.toNat + nnn.toNat := by
  have h := nnn.isLt
  rw [encodeNNN, BitVec.toNat_append, ← Nat.shiftLeft_add_eq_or_of_lt h, Nat.shiftLeft_eq]
  omega

/-- The value of a word of format XNN, and of format X with its fixed low byte. -/
theorem toNat_encodeXNN (op : Nibble) (x : Reg) (nn : Byte) :
    (encodeXNN op x nn).toNat = 0x1000 * op.toNat + 0x100 * x.toNat + nn.toNat := by
  have h := nn.isLt
  change (encodeNNN op (x ++ nn)).toNat = _
  rw [toNat_encodeNNN, BitVec.toNat_append, ← Nat.shiftLeft_add_eq_or_of_lt h, Nat.shiftLeft_eq]
  omega

/-- The value of a word of format XYN, and of format XY with its fixed low nibble. -/
theorem toNat_encodeXYN (op : Nibble) (x y : Reg) (n : Nibble) :
    (encodeXYN op x y n).toNat = 0x1000 * op.toNat + 0x100 * x.toNat + 0x10 * y.toNat + n.toNat := by
  have h := n.isLt
  change (encodeXNN op x (y ++ n)).toNat = _
  rw [toNat_encodeXNN, BitVec.toNat_append, ← Nat.shiftLeft_add_eq_or_of_lt h, Nat.shiftLeft_eq]
  omega

end Sys2Proof
end

