-- ==== Sys2Proof/Laws/Exec.lean ====
section
/-! SUPPORT. What any instruction's meaning can do, said once over `exec`: it answers a next state whenever SP is legal, it keeps the
latch unless it takes one of the two stack conditions, and it keeps the canonical form of memory. -/

namespace Sys2Proof.Machine

/-- With a legal SP every instruction answers a next state. -/
theorem exec_answers_next (i : Instr) {s : State} (h : s.sp.toNat ≤ 16) : ∃ t, exec i s = .next t := by
  cases i with
  | call nnn => simp only [exec, execCall]; split <;> exact ⟨_, rfl⟩
  | ret =>
    simp only [exec, execRet]
    split
    · exact ⟨_, rfl⟩
    · have hlt : s.sp.toNat - 1 < 16 := by omega
      have htop : s.top = some (s.stack[s.sp.toNat - 1]) := by simp [State.top, hlt]
      simp [htop]
  | ldVxKey x => simp only [exec, execLdVxKey]; split <;> exact ⟨_, rfl⟩
  | _ => exact ⟨_, rfl⟩

/-- The latch after an instruction: as before, or one of the two stack conditions taken in the state before the fetch. -/
theorem exec_fault_cases {i : Instr} {s t : State} (h : exec i s = .next t) :
    t.fault = s.fault ∨
    (∃ nnn, i = .call nnn ∧ 16 ≤ s.sp.toNat ∧
      t = { s.rewind with fault := some (.stackOverflow (encode (.call nnn)) s.rewind.pc) }) ∨
    (i = .ret ∧ s.sp.toNat = 0 ∧
      t = { s.rewind with fault := some (.stackUnderflow (encode .ret) s.rewind.pc) }) := by
  cases i with
  | call nnn =>
    simp only [exec, execCall] at h
    split at h
    · next h16 =>
      simp only [raiseInExecute, takeFault, Host.Outcome.next.injEq] at h
      exact Or.inr (Or.inl ⟨nnn, rfl, h16, h.symm⟩)
    · simp only [Host.Outcome.next.injEq] at h
      subst h
      exact Or.inl rfl
  | ret =>
    simp only [exec, execRet] at h
    split at h
    · next h0 =>
      simp only [raiseInExecute, takeFault, Host.Outcome.next.injEq] at h
      exact Or.inr (Or.inr ⟨rfl, h0, h.symm⟩)
    · split at h <;> simp only [Host.Outcome.next.injEq, reduceCtorEq] at h
      subst h
      exact Or.inl rfl
  | ldVxKey x =>
    simp only [exec, execLdVxKey] at h
    split at h <;> simp only [Host.Outcome.next.injEq] at h <;> subst h <;> exact Or.inl rfl
  | addI x =>
    simp only [exec, execAddI, State.addIndex, Host.Outcome.next.injEq] at h
    subst h
    left
    split <;> rfl
  | _ =>
    first
      | (cases h; exact Or.inl rfl)
      | (simp only [exec, execSeImm, execSneImm, execSeReg, execSneReg, execSkp, execSknp, execStoreRegs, execLoadRegs,
          Host.Outcome.next.injEq] at h
         subst h
         simp)

/-- Every instruction keeps the canonical form of memory. -/
theorem exec_keeps_memory_wf {i : Instr} {s t : State} (hs : s.mem.wf s.params = true) (h : exec i s = .next t) :
    t.mem.wf t.params = true := by
  cases i with
  | call nnn =>
    simp only [exec, execCall] at h
    split at h <;> simp only [raiseInExecute, takeFault, Host.Outcome.next.injEq] at h <;> subst h <;> exact hs
  | ret =>
    simp only [exec, execRet] at h
    split at h
    · simp only [raiseInExecute, takeFault, Host.Outcome.next.injEq] at h
      subst h
      exact hs
    · split at h <;> simp only [Host.Outcome.next.injEq, reduceCtorEq] at h
      subst h
      exact hs
  | ldVxKey x =>
    simp only [exec, execLdVxKey] at h
    split at h <;> simp only [Host.Outcome.next.injEq] at h <;> subst h <;> exact hs
  | addI x =>
    simp only [exec, execAddI, State.addIndex, Host.Outcome.next.injEq] at h
    subst h
    split <;> exact hs
  | ldBcd x =>
    simp only [exec, execLdBcd, Host.Outcome.next.injEq] at h
    subst h
    exact State.memWrite_wf (State.memWrite_wf (State.memWrite_wf hs _ _) _ _) _ _
  | storeRegs x =>
    simp only [exec, execStoreRegs, Host.Outcome.next.injEq] at h
    subst h
    exact State.storeFirst_wf hs _
  | _ =>
    first
      | (cases h; exact hs)
      | (simp only [exec, execSeImm, execSneImm, execSeReg, execSneReg, execSkp, execSknp, execLoadRegs,
          Host.Outcome.next.injEq] at h
         subst h
         simpa using hs)

end Sys2Proof.Machine
end

