-- ==== Sys2Proof/Laws/PerInstr.lean ====
section
/-! SUPPORT. The per-instruction family `SelectsItsRow`: the word of an instruction selects the row that 30_encoding.md R96 gives
the instruction (`w & mask == match`), whatever its operands. -/

namespace Sys2Proof.Laws.SelectsItsRow

/-- The instruction's word selects the instruction's row of R96. -/
def Statement (i : Instr) : Prop := i.row.selects (encode i) = true

/-! The fixed bits of each format, once. -/

theorem encodeNNN_mask (op : Nibble) (nnn : Addr) : encodeNNN op nnn &&& 0xF000#16 = op ++ 0x000#12 := by
  apply BitVec.eq_of_getLsbD_eq
  intro k hk
  simp only [encodeNNN, BitVec.getLsbD_and, BitVec.getLsbD_append]
  interval_cases k <;> simp

theorem encodeXNN_mask (op : Nibble) (x : Reg) (nn : Byte) : encodeXNN op x nn &&& 0xF000#16 = op ++ 0x000#12 :=
  encodeNNN_mask op (x ++ nn : BitVec 12)

theorem encodeXYN_mask (op : Nibble) (x y : Reg) (n : Nibble) : encodeXYN op x y n &&& 0xF000#16 = op ++ 0x000#12 :=
  encodeNNN_mask op (x ++ (y ++ n : BitVec 8) : BitVec 12)

theorem encodeXYN_subop (op : Nibble) (x y : Reg) (n : Nibble) :
    encodeXYN op x y n &&& 0xF00F#16 = encodeXYN op 0#4 0#4 n := by
  apply BitVec.eq_of_getLsbD_eq
  intro k hk
  simp only [encodeXYN, BitVec.getLsbD_and, BitVec.getLsbD_append]
  interval_cases k <;> simp

theorem encodeXNN_subop (op : Nibble) (x : Reg) (nn : Byte) : encodeXNN op x nn &&& 0xF0FF#16 = encodeXNN op 0#4 nn := by
  apply BitVec.eq_of_getLsbD_eq
  intro k hk
  simp only [encodeXNN, BitVec.getLsbD_and, BitVec.getLsbD_append]
  interval_cases k <;> simp

/-! One lemma per constructor. -/

theorem cls : Statement .cls := by unfold Statement; decide
theorem ret : Statement .ret := by unfold Statement; decide
theorem jp (nnn : Addr) : Statement (.jp nnn) := by
  simp only [Statement, OpcodeRow.selects, Instr.row, encode, encodeNNN_mask]; decide
theorem call (nnn : Addr) : Statement (.call nnn) := by
  simp only [Statement, OpcodeRow.selects, Instr.row, encode, encodeNNN_mask]; decide
theorem seImm (x : Reg) (nn : Byte) : Statement (.seImm x nn) := by
  simp only [Statement, OpcodeRow.selects, Instr.row, encode, encodeXNN_mask]; decide
theorem sneImm (x : Reg) (nn : Byte) : Statement (.sneImm x nn) := by
  simp only [Statement, OpcodeRow.selects, Instr.row, encode, encodeXNN_mask]; decide
theorem seReg (x : Reg) (y : Reg) : Statement (.seReg x y) := by
  simp only [Statement, OpcodeRow.selects, Instr.row, encode, encodeXYN_subop]; decide
theorem ldImm (x : Reg) (nn : Byte) : Statement (.ldImm x nn) := by
  simp only [Statement, OpcodeRow.selects, Instr.row, encode, encodeXNN_mask]; decide
theorem addImm (x : Reg) (nn : Byte) : Statement (.addImm x nn) := by
  simp only [Statement, OpcodeRow.selects, Instr.row, encode, encodeXNN_mask]; decide
theorem ldReg (x : Reg) (y : Reg) : Statement (.ldReg x y) := by
  simp only [Statement, OpcodeRow.selects, Instr.row, encode, encodeXYN_subop]; decide
theorem orReg (x : Reg) (y : Reg) : Statement (.orReg x y) := by
  simp only [Statement, OpcodeRow.selects, Instr.row, encode, encodeXYN_subop]; decide
theorem andReg (x : Reg) (y : Reg) : Statement (.andReg x y) := by
  simp only [Statement, OpcodeRow.selects, Instr.row, encode, encodeXYN_subop]; decide
theorem xorReg (x : Reg) (y : Reg) : Statement (.xorReg x y) := by
  simp only [Statement, OpcodeRow.selects, Instr.row, encode, encodeXYN_subop]; decide
theorem addReg (x : Reg) (y : Reg) : Statement (.addReg x y) := by
  simp only [Statement, OpcodeRow.selects, Instr.row, encode, encodeXYN_subop]; decide
theorem subReg (x : Reg) (y : Reg) : Statement (.subReg x y) := by
  simp only [Statement, OpcodeRow.selects, Instr.row, encode, encodeXYN_subop]; decide
theorem shr (x : Reg) (y : Reg) : Statement (.shr x y) := by
  simp only [Statement, OpcodeRow.selects, Instr.row, encode, encodeXYN_subop]; decide
theorem subnReg (x : Reg) (y : Reg) : Statement (.subnReg x y) := by
  simp only [Statement, OpcodeRow.selects, Instr.row, encode, encodeXYN_subop]; decide
theorem shl (x : Reg) (y : Reg) : Statement (.shl x y) := by
  simp only [Statement, OpcodeRow.selects, Instr.row, encode, encodeXYN_subop]; decide
theorem sneReg (x : Reg) (y : Reg) : Statement (.sneReg x y) := by
  simp only [Statement, OpcodeRow.selects, Instr.row, encode, encodeXYN_subop]; decide
theorem ldI (nnn : Addr) : Statement (.ldI nnn) := by
  simp only [Statement, OpcodeRow.selects, Instr.row, encode, encodeNNN_mask]; decide
theorem jpV0 (nnn : Addr) : Statement (.jpV0 nnn) := by
  simp only [Statement, OpcodeRow.selects, Instr.row, encode, encodeNNN_mask]; decide
theorem rnd (x : Reg) (nn : Byte) : Statement (.rnd x nn) := by
  simp only [Statement, OpcodeRow.selects, Instr.row, encode, encodeXNN_mask]; decide
theorem drw (x : Reg) (y : Reg) (n : Nibble) : Statement (.drw x y n) := by
  simp only [Statement, OpcodeRow.selects, Instr.row, encode, encodeXYN_mask]; decide
theorem skp (x : Reg) : Statement (.skp x) := by
  simp only [Statement, OpcodeRow.selects, Instr.row, encode, encodeXNN_subop]; decide
theorem sknp (x : Reg) : Statement (.sknp x) := by
  simp only [Statement, OpcodeRow.selects, Instr.row, encode, encodeXNN_subop]; decide
theorem ldVxDt (x : Reg) : Statement (.ldVxDt x) := by
  simp only [Statement, OpcodeRow.selects, Instr.row, encode, encodeXNN_subop]; decide
theorem ldVxKey (x : Reg) : Statement (.ldVxKey x) := by
  simp only [Statement, OpcodeRow.selects, Instr.row, encode, encodeXNN_subop]; decide
theorem ldDtVx (x : Reg) : Statement (.ldDtVx x) := by
  simp only [Statement, OpcodeRow.selects, Instr.row, encode, encodeXNN_subop]; decide
theorem ldStVx (x : Reg) : Statement (.ldStVx x) := by
  simp only [Statement, OpcodeRow.selects, Instr.row, encode, encodeXNN_subop]; decide
theorem addI (x : Reg) : Statement (.addI x) := by
  simp only [Statement, OpcodeRow.selects, Instr.row, encode, encodeXNN_subop]; decide
theorem ldFont (x : Reg) : Statement (.ldFont x) := by
  simp only [Statement, OpcodeRow.selects, Instr.row, encode, encodeXNN_subop]; decide
theorem ldBcd (x : Reg) : Statement (.ldBcd x) := by
  simp only [Statement, OpcodeRow.selects, Instr.row, encode, encodeXNN_subop]; decide
theorem storeRegs (x : Reg) : Statement (.storeRegs x) := by
  simp only [Statement, OpcodeRow.selects, Instr.row, encode, encodeXNN_subop]; decide
theorem loadRegs (x : Reg) : Statement (.loadRegs x) := by
  simp only [Statement, OpcodeRow.selects, Instr.row, encode, encodeXNN_subop]; decide

end Sys2Proof.Laws.SelectsItsRow
end

