-- ==== Sys2Proof/Tests/Slice0.lean ====
section
/-! SUPPORT. Tests of one decode or one step each, with the expected values of spec/95_test_vectors.md (the vector's id stands at
the test), and for every obligation with hypotheses a witness that meets them, at the boundaries of its clauses. -/

namespace Sys2Proof.Machine.Tests

/-! ### Helpers -/

/-- The reset state with the word `w` at 0x200 and its PC there. -/
def at200 (w : Nat) : State := State.reset.withFetchWord 16 w

/-- The same on hardware with other parameters. -/
def withParams (p : Params) (w : Nat) : State := (State.resetWith p).withFetchWord 16 w

/-- The state after one step, none where the step stops. -/
def after (s : State) : Option State :=
  match step s with
  | .next t => some t
  | .fault _ => none
  | .refused _ => none

/-- One fact about the state after one step. -/
def stepGives (s : State) (p : State → Bool) : Bool := (after s).any p

/-- Bytes written from address `a` upwards. -/
def withBytes (s : State) (a : Nat) (bytes : List Byte) : State := copyImage a bytes s

/-! ### Words that are no instruction (30_encoding.md R97; vectors FD6 to FD10), one per family that has some -/

theorem test_illformed_family0 : wellFormedWord 0x00E1#16 = false ∧ decode 0x0123#16 = .unknown 0x0123#16 := by decide
theorem test_illformed_family5 : wellFormedWord 0x512F#16 = false ∧ decode 0x512F#16 = .unknown 0x512F#16 := by decide
theorem test_illformed_family8 : wellFormedWord 0x812D#16 = false ∧ decode 0x812D#16 = .unknown 0x812D#16 := by decide
theorem test_illformed_family9 : wellFormedWord 0x9121#16 = false ∧ decode 0x9121#16 = .unknown 0x9121#16 := by decide
theorem test_illformed_familyE : wellFormedWord 0xE1A0#16 = false ∧ decode 0xE1A0#16 = .unknown 0xE1A0#16 := by decide
theorem test_illformed_familyF : wellFormedWord 0xF166#16 = false ∧ decode 0xF166#16 = .unknown 0xF166#16 := by decide
theorem test_too_few_bytes : decodeBytes [0x60#8] = .tooShort [0x60#8] := by decide

/-! ### Every constructor's word, written out from 30_encoding.md R92 and R96 -/

theorem test_decode_cls : decodeTableWord 16 0b0000000011100000 = some .cls := by decide
theorem test_decode_ret : decodeTableWord 16 0b0000000011101110 = some .ret := by decide
theorem test_decode_jp : decodeTableWord 16 0b0001101010111100 = some (.jp 0xABC#12) := by decide
theorem test_decode_call : decodeTableWord 16 0b0010101010111100 = some (.call 0xABC#12) := by decide
theorem test_decode_seImm : decodeTableWord 16 0b0011000101011010 = some (.seImm 0x1#4 0x5A#8) := by decide
theorem test_decode_sneImm : decodeTableWord 16 0b0100000101011010 = some (.sneImm 0x1#4 0x5A#8) := by decide
theorem test_decode_seReg : decodeTableWord 16 0b0101000100100000 = some (.seReg 0x1#4 0x2#4) := by decide
theorem test_decode_ldImm : decodeTableWord 16 0b0110111100000001 = some (.ldImm 0xF#4 0x01#8) := by decide
theorem test_decode_addImm : decodeTableWord 16 0b0111000111111110 = some (.addImm 0x1#4 0xFE#8) := by decide
theorem test_decode_ldReg : decodeTableWord 16 0b1000000100100000 = some (.ldReg 0x1#4 0x2#4) := by decide
theorem test_decode_orReg : decodeTableWord 16 0b1000000100100001 = some (.orReg 0x1#4 0x2#4) := by decide
theorem test_decode_andReg : decodeTableWord 16 0b1000000100100010 = some (.andReg 0x1#4 0x2#4) := by decide
theorem test_decode_xorReg : decodeTableWord 16 0b1000000100100011 = some (.xorReg 0x1#4 0x2#4) := by decide
theorem test_decode_addReg : decodeTableWord 16 0b1000000100100100 = some (.addReg 0x1#4 0x2#4) := by decide
theorem test_decode_subReg : decodeTableWord 16 0b1000000100100101 = some (.subReg 0x1#4 0x2#4) := by decide
theorem test_decode_shr : decodeTableWord 16 0b1000000100100110 = some (.shr 0x1#4 0x2#4) := by decide
theorem test_decode_subnReg : decodeTableWord 16 0b1000000100100111 = some (.subnReg 0x1#4 0x2#4) := by decide
theorem test_decode_shl : decodeTableWord 16 0b1000000100101110 = some (.shl 0x1#4 0x2#4) := by decide
theorem test_decode_sneReg : decodeTableWord 16 0b1001000100100000 = some (.sneReg 0x1#4 0x2#4) := by decide
theorem test_decode_ldI : decodeTableWord 16 0b1010101010111100 = some (.ldI 0xABC#12) := by decide
theorem test_decode_jpV0 : decodeTableWord 16 0b1011101010111100 = some (.jpV0 0xABC#12) := by decide
theorem test_decode_rnd : decodeTableWord 16 0b1100001100001111 = some (.rnd 0x3#4 0x0F#8) := by decide
theorem test_decode_drw : decodeTableWord 16 0b1101000100101111 = some (.drw 0x1#4 0x2#4 0xF#4) := by decide
theorem test_decode_skp : decodeTableWord 16 0b1110010110011110 = some (.skp 0x5#4) := by decide
theorem test_decode_sknp : decodeTableWord 16 0b1110010110100001 = some (.sknp 0x5#4) := by decide
theorem test_decode_ldVxDt : decodeTableWord 16 0b1111010000000111 = some (.ldVxDt 0x4#4) := by decide
theorem test_decode_ldVxKey : decodeTableWord 16 0b1111001100001010 = some (.ldVxKey 0x3#4) := by decide
theorem test_decode_ldDtVx : decodeTableWord 16 0b1111001100010101 = some (.ldDtVx 0x3#4) := by decide
theorem test_decode_ldStVx : decodeTableWord 16 0b1111001100011000 = some (.ldStVx 0x3#4) := by decide
theorem test_decode_addI : decodeTableWord 16 0b1111001000011110 = some (.addI 0x2#4) := by decide
theorem test_decode_ldFont : decodeTableWord 16 0b1111001000101001 = some (.ldFont 0x2#4) := by decide
theorem test_decode_ldBcd : decodeTableWord 16 0b1111001000110011 = some (.ldBcd 0x2#4) := by decide
theorem test_decode_storeRegs : decodeTableWord 16 0b1111001001010101 = some (.storeRegs 0x2#4) := by decide
theorem test_decode_loadRegs : decodeTableWord 16 0b1111001001100101 = some (.loadRegs 0x2#4) := by decide

/-! ### The cycle (vectors FD1, FD4, FD6, FD12) -/

/-- FD1: big-endian fetch. -/
theorem test_fetch_big_endian : (withBytes State.reset 0x200 [0x12, 0x34]).fetchWord = 0x1234#16 := by decide
/-- FD4: the second byte of the fetch at 0xFFF is the font's first byte. -/
theorem test_fetch_wraps :
    stepGives (withBytes { State.reset with pc := 0xFFF#16 } 0xFFF [0x6A])
      (fun t => t.readV 0xA#4 = 0xF0#8 ∧ t.pc = 0x1001#16) = true := by decide
/-- FD6: the state is unchanged but for the latch. -/
theorem test_unknown_word_latches :
    after (at200 0x0FFF) = some { at200 0x0FFF with fault := some (.unknownOpcode 0x0FFF#16 0x200#16) } := by decide
/-- FD12. -/
theorem test_latched_cycle_stops :
    step { at200 0x6005 with fault := some (.pcOutOfRange 0x1000#16) } = .fault (.latched (.pcOutOfRange 0x1000#16)) :=
  rfl

/-! ### Arithmetic and logic (vectors AL) -/

/-- AL2. -/
theorem test_ldImm : stepGives (at200 0x6F01) (fun t => t.readV vf = 0x01#8 ∧ t.pc = 0x202#16) = true := by decide
/-- AL3. -/
theorem test_addImm_wraps_without_flag :
    stepGives (((at200 0x7001).setV 0 0xFF#8).setV vf 0x5A#8) (fun t => t.readV 0 = 0x00#8 ∧ t.readV vf = 0x5A#8) = true := by
  decide
/-- AL6. -/
theorem test_ldReg : stepGives ((at200 0x8010).setV 1 0x37#8) (fun t => t.readV 0 = 0x37#8) = true := by decide
/-- AL7. -/
theorem test_orReg_keeps_VF :
    stepGives ((((at200 0x8011).setV 0 0xF0#8).setV 1 0x0F#8).setV vf 0x5A#8)
      (fun t => t.readV 0 = 0xFF#8 ∧ t.readV vf = 0x5A#8) = true := by decide
/-- AL8. -/
theorem test_andReg :
    stepGives (((at200 0x8012).setV 0 0xF3#8).setV 1 0x3C#8) (fun t => t.readV 0 = 0x30#8) = true := by decide
/-- AL9. -/
theorem test_xorReg :
    stepGives (((at200 0x8013).setV 0 0xFF#8).setV 1 0x0F#8) (fun t => t.readV 0 = 0xF0#8) = true := by decide
/-- AL12. -/
theorem test_addReg_carry :
    stepGives (((at200 0x8014).setV 0 0xFF#8).setV 1 0x02#8) (fun t => t.readV 0 = 0x01#8 ∧ t.readV vf = 0x01#8) = true := by
  decide
/-- AL17: the sum is lost and the flag remains. -/
theorem test_addReg_into_VF :
    stepGives (((at200 0x8F04).setV vf 0x01#8).setV 0 0x02#8) (fun t => t.readV vf = 0x00#8) = true := by decide
/-- AL21. -/
theorem test_subReg_equal :
    stepGives (((at200 0x8015).setV 0 0x33#8).setV 1 0x33#8) (fun t => t.readV 0 = 0x00#8 ∧ t.readV vf = 0x01#8) = true := by
  decide
/-- AL19. -/
theorem test_subReg_borrow :
    stepGives (((at200 0x8015).setV 0 0x10#8).setV 1 0x20#8) (fun t => t.readV 0 = 0xF0#8 ∧ t.readV vf = 0x00#8) = true := by
  decide
/-- FD11 and AL25: Y is ignored. -/
theorem test_shr_ignores_Y :
    stepGives (((at200 0x82F6).setV 2 0x05#8).setV vf 0xF0#8) (fun t => t.readV 2 = 0x02#8 ∧ t.readV vf = 0x01#8) = true := by
  decide
/-- AL30. -/
theorem test_shr_of_VF : stepGives ((at200 0x8F06).setV vf 0x03#8) (fun t => t.readV vf = 0x01#8) = true := by decide
/-- AL33. -/
theorem test_subnReg_borrow :
    stepGives (((at200 0x8017).setV 0 0x20#8).setV 1 0x10#8) (fun t => t.readV 0 = 0xF0#8 ∧ t.readV vf = 0x00#8) = true := by
  decide
/-- AL36. -/
theorem test_subnReg_into_VF :
    stepGives (((at200 0x8F07).setV vf 0x02#8).setV 0 0x03#8) (fun t => t.readV vf = 0x01#8) = true := by decide
/-- AL38. -/
theorem test_shl :
    stepGives ((at200 0x800E).setV 0 0x7F#8) (fun t => t.readV 0 = 0xFE#8 ∧ t.readV vf = 0x00#8) = true := by decide
/-- AL41. -/
theorem test_shl_of_VF : stepGives ((at200 0x8F0E).setV vf 0x80#8) (fun t => t.readV vf = 0x01#8) = true := by decide
/-- AL43. -/
theorem test_rnd :
    stepGives ((at200 0xC30F).supplyByte 0xA7#8)
      (fun t => t.readV 3 = 0x07#8 ∧ t.supplied = [] ∧ t.draws = 1) = true := by decide

/-! ### Control flow (vectors CF) -/

/-- CF1. -/
theorem test_jp : stepGives (at200 0x1234) (fun t => t.pc = 0x234#16) = true := by decide
/-- CF4, at 0x200: the sixteenth return address. -/
theorem test_call_fills_stack :
    stepGives { at200 0x2300 with sp := 15#8 }
      (fun t => t.stack[15] = 0x0202#16 ∧ t.sp = 16#8 ∧ t.pc = 0x300#16) = true := by decide
/-- CF5, at 0x200. -/
theorem test_call_overflow :
    after { at200 0x2300 with sp := 16#8 } =
      some { at200 0x2300 with sp := 16#8, fault := some (.stackOverflow 0x2300#16 0x200#16) } := by decide
/-- CF8: the popped address is not masked and not checked. -/
theorem test_ret :
    stepGives { at200 0x00EE with sp := 1#8, stack := State.reset.stack.set 0 0x1000#16 }
      (fun t => t.sp = 0#8 ∧ t.pc = 0x1000#16 ∧ t.stack[0] = 0x1000#16 ∧ t.fault = none) = true := by decide
/-- CF7, S9. -/
theorem test_ret_underflow :
    after (at200 0x00EE) = some { at200 0x00EE with fault := some (.stackUnderflow 0x00EE#16 0x200#16) } := by decide
/-- CF9. -/
theorem test_seImm_skips : stepGives (at200 0x3100) (fun t => t.pc = 0x204#16) = true := by decide
/-- CF10. -/
theorem test_seImm_goes_on : stepGives ((at200 0x3100).setV 1 0x01#8) (fun t => t.pc = 0x202#16) = true := by decide
/-- CF11. -/
theorem test_sneImm_skips : stepGives ((at200 0x4100).setV 1 0x01#8) (fun t => t.pc = 0x204#16) = true := by decide
/-- CF12. -/
theorem test_sneImm_goes_on : stepGives (at200 0x4100) (fun t => t.pc = 0x202#16) = true := by decide
/-- CF13. -/
theorem test_seReg_skips :
    stepGives (((at200 0x5230).setV 2 0x44#8).setV 3 0x44#8) (fun t => t.pc = 0x204#16) = true := by decide
/-- CF14. -/
theorem test_seReg_goes_on :
    stepGives (((at200 0x5230).setV 2 0x44#8).setV 3 0x45#8) (fun t => t.pc = 0x202#16) = true := by decide
/-- CF16. -/
theorem test_sneReg_skips :
    stepGives (((at200 0x9230).setV 2 0x44#8).setV 3 0x45#8) (fun t => t.pc = 0x204#16) = true := by decide
/-- CF17. -/
theorem test_sneReg_goes_on : stepGives ((at200 0x9220).setV 2 0x44#8) (fun t => t.pc = 0x202#16) = true := by decide
/-- CF19: not reduced modulo 4096. -/
theorem test_jpV0 : stepGives ((at200 0xBFFF).setV 0 0xFF#8) (fun t => t.pc = 0x10FE#16 ∧ t.fault = none) = true := by decide

/-! ### Index register and memory (vectors MI) -/

/-- MI1. -/
theorem test_ldI : stepGives (at200 0xA300) (fun t => t.i = 0x0300#16) = true := by decide
/-- MI2. -/
theorem test_addI_wraps_and_keeps_VF :
    stepGives ((((at200 0xF21E).setI 0x0FF0#16).setV 2 0x20#8).setV vf 0x5A#8)
      (fun t => t.i = 0x0010#16 ∧ t.readV vf = 0x5A#8) = true := by decide
/-- The other value of the parameter (43_memory_index.md R191): X = 15, the old VF is the addend and the flag is written afterwards. -/
theorem test_addI_with_flag :
    stepGives (((withParams { defaultParams with fx1eSetsVF := true } 0xFF1E).setI 0x0FFF#16).setV vf 0x02#8)
      (fun t => t.i = 0x0001#16 ∧ t.readV vf = 0x01#8) = true := by decide
/-- With another `FONT_BASE` (43_memory_index.md R192): 0x50 + 5 * 0xA, and glyph A's bytes are there (20_memory.md R63). -/
theorem test_ldFont_other_base :
    stepGives ((withParams { defaultParams with fontBase := 0x050 } 0xF029).setV 0 0x1A#8)
      (fun t => t.i = 0x0082#16 ∧
        t.memRead 0x082#12 = 0xF0#8 ∧ t.memRead 0x086#12 = 0x90#8 ∧ t.memRead 0x000#12 = 0x00#8) = true := by decide
/-- MI6. -/
theorem test_ldFont : stepGives ((at200 0xF029).setV 0 0x1A#8) (fun t => t.i = 0x0032#16) = true := by decide
/-- MI13: the third digit overwrites the font's first byte. -/
theorem test_ldBcd_wraps :
    stepGives (((at200 0xF033).setI 0x0FFE#16).setV 0 0x7B#8)
      (fun t => t.memRead 0xFFE#12 = 0x01#8 ∧ t.memRead 0xFFF#12 = 0x02#8 ∧ t.memRead 0x000#12 = 0x03#8 ∧ t.i = 0x0FFE#16)
      = true := by decide
/-- MI9. -/
theorem test_ldBcd_digits :
    stepGives (((at200 0xF033).setI 0x0300#16).setV 0 0xFF#8)
      (fun t => t.memRead 0x300#12 = 0x02#8 ∧ t.memRead 0x301#12 = 0x05#8 ∧ t.memRead 0x302#12 = 0x05#8) = true := by decide
/-- MI14. -/
theorem test_storeRegs :
    stepGives (((((at200 0xF255).setI 0x0400#16).setV 0 0x11#8).setV 1 0x22#8).setV 2 0x33#8)
      (fun t => t.memRead 0x400#12 = 0x11#8 ∧ t.memRead 0x402#12 = 0x33#8 ∧ t.memRead 0x403#12 = 0x00#8 ∧ t.i = 0x0400#16)
      = true := by decide
/-- MI16: the sixteenth register wraps to 0x007. -/
theorem test_storeRegs_wraps :
    stepGives (((at200 0xFF55).setI 0x0FF8#16).setV vf 0x10#8)
      (fun t => t.memRead 0x007#12 = 0x10#8 ∧ t.memRead 0x008#12 = 0x20#8) = true := by decide
/-- MI17. -/
theorem test_loadRegs :
    stepGives (withBytes (((at200 0xF265).setI 0x0400#16).setV 3 0x77#8) 0x400 [0x11, 0x22, 0x33])
      (fun t => t.readV 0 = 0x11#8 ∧ t.readV 2 = 0x33#8 ∧ t.readV 3 = 0x77#8 ∧ t.i = 0x0400#16) = true := by decide
/-- MI20: the font's first byte. -/
theorem test_loadRegs_font : stepGives (at200 0xF065) (fun t => t.readV 0 = 0xF0#8) = true := by decide

/-! ### Graphics (vectors GR) -/

/-- A display whose top left pixel is on. -/
def onePixel : Display := Display.clear.toggle 0 0

/-- GR1. -/
theorem test_cls : stepGives ((at200 0x00E0).setFb onePixel) (fun t => t.pixel 0 0 = false) = true := by decide
/-- GR2: both axes wrap. -/
theorem test_drw_wraps :
    stepGives (withBytes ((((at200 0xD012).setI 0x020C#16).setV 0 0x3E#8).setV 1 0x1F#8) 0x20C [0xC0, 0x81])
      (fun t => t.pixel 31 62 ∧ t.pixel 31 63 ∧ t.pixel 0 62 ∧ t.pixel 0 5 ∧ t.pixel 31 0 = false ∧ t.readV vf = 0x00#8)
      = true := by decide
/-- GR9: the old VF is the column, then VF is the flag. GR5: the covered pixels are inverted and a collision is flagged. -/
theorem test_drw_flag :
    stepGives (withBytes ((((at200 0xDF11).setI 0x0300#16).setV vf 0x05#8).setV 1 0x02#8) 0x300 [0x80])
      (fun t => t.pixel 2 5 = true ∧ t.readV vf = 0x00#8) = true ∧
    stepGives (withBytes (((at200 0xD011).setI 0x020C#16).setFb (Display.clear.set 0 0xFF#64)) 0x20C [0x81])
      (fun t => t.pixel 0 0 = false ∧ t.pixel 0 1 = true ∧ t.pixel 0 6 = true ∧ t.pixel 0 7 = false ∧ t.readV vf = 0x01#8)
      = true := by decide

/-! ### Timers and input (vectors TM, KY) -/

/-- TM2. -/
theorem test_ldVxDt : stepGives ((at200 0xF407).setDt 0x05#8) (fun t => t.readV 4 = 0x05#8 ∧ t.dt = 0x05#8) = true := by decide
/-- TM1. -/
theorem test_ldDtVx : stepGives ((at200 0xF315).setV 3 0x07#8) (fun t => t.dt = 0x07#8 ∧ t.st = 0x00#8) = true := by decide
/-- TM4. -/
theorem test_ldStVx : stepGives ((at200 0xF018).setV 0 0x02#8) (fun t => t.st = 0x02#8 ∧ t.shouldPlaySound) = true := by decide
/-- TM5. -/
theorem test_tick : ((at200 0).setDt 0x01#8).tickTimers.dt = 0x00#8 ∧ ((at200 0).setDt 0x01#8).tickTimers.st = 0x00#8 := by
  decide
/-- KY5: the low nibble. -/
theorem test_skp :
    stepGives ((((at200 0xE59E).setV 5 0x1A#8).setKey 0xA true).1) (fun t => t.pc = 0x204#16) = true := by decide
/-- KY4. -/
theorem test_sknp :
    stepGives ((((at200 0xE5A1).setV 5 0x0A#8).setKey 0xA true).1) (fun t => t.pc = 0x202#16) = true := by decide
/-- KY10: the lowest of two edges, and both are recorded. -/
theorem test_ldVxKey_lowest :
    stepGives ((((at200 0xF30A).setKey 9 true).1.setKey 4 true).1)
      (fun t => t.readV 3 = 0x04#8 ∧ t.pc = 0x202#16 ∧ t.keyWasDown 4 ∧ t.keyWasDown 9) = true := by decide
/-- KY8: a held key is no edge. -/
theorem test_ldVxKey_parks :
    stepGives { at200 0xF30A with keys := State.reset.keys.set 7 true, prevKeys := State.reset.keys.set 7 true }
      (fun t => t.pc = 0x200#16 ∧ t.readV 3 = 0x00#8) = true := by decide
/-- KY12. -/
theorem test_setKey_rejects : State.reset.setKey 16 true = (State.reset, some (.invalidKeyIndex 16)) := by decide

/-! ### Witnesses: for each statement with hypotheses, a state and operands that meet them, clause by clause -/

theorem witness_EncodeOfDecodeIsIdentity : decode 0x82F6#16 = .instr (.shr 0x2#4 0xF#4) := by decide

theorem witness_DecodeAgreesWithOpcodeTable :
    (decode 0xF065#16 = .instr (.loadRegs 0x0#4) ∧ (⟨0xF065#16, 0xF0FF#16⟩ : OpcodeRow) ∈ opcodeRows) ∧
    decode 0xF066#16 = .unknown 0xF066#16 := by decide

theorem witness_StepExecutesDecodedInstruction :
    ((at200 0x6005).fault = none ∧ (at200 0x6005).pc.toNat ≤ 0x0FFF ∧
      decode (at200 0x6005).fetchWord = .instr (.ldImm 0x0#4 0x05#8) ∧
      exec (.ldImm 0x0#4 0x05#8) (at200 0x6005).advance = .next ((at200 0x6005).advance.setV 0x0#4 0x05#8) ∧
      ((at200 0x6005).advance.setV 0x0#4 0x05#8).fault = none) ∧
    (decode (at200 0x00EE).fetchWord = .instr .ret ∧
      exec .ret (at200 0x00EE).advance =
        .next { at200 0x00EE with fault := some (.stackUnderflow 0x00EE#16 0x200#16) }) ∧
    (decode ({ at200 0x00EE with sp := 17#8 }).fetchWord = .instr .ret ∧
      exec .ret ({ at200 0x00EE with sp := 17#8 }).advance = .fault (.illegalStackPointer 17#8)) :=
  ⟨⟨rfl, by decide, by decide, rfl, rfl⟩, ⟨by decide, rfl⟩, ⟨by decide, rfl⟩⟩

theorem witness_PlacedWordIsFetched :
    ({ State.reset with pc := 0x0FFF#16 }).mem.wf defaultParams = true ∧ (0x0FFF#16 : Word).toNat ≤ 0x0FFF ∧
    (0x001#12 : Addr) ≠ ea 0x0FFF#16 0 ∧ (0x001#12 : Addr) ≠ ea 0x0FFF#16 1 := by decide

theorem witness_LatchedCycleReturnsSameRecord :
    ({ State.reset with fault := some (.pcOutOfRange 0x1000#16) }).fault = some (.pcOutOfRange 0x1000#16) := by decide

theorem witness_PcOutOfRangeIsTaken :
    ({ State.reset with pc := 0x1000#16 }).fault = none ∧ 0x0FFF < ({ State.reset with pc := 0x1000#16 }).pc.toNat := by decide

theorem witness_UnknownOpcodeIsTaken :
    (at200 0x0000).fault = none ∧ (at200 0x0000).pc.toNat ≤ 0x0FFF ∧ wellFormedWord (at200 0x0000).fetchWord = false := by decide

theorem witness_StackFaultsAreTaken :
    ({ at200 0x2300 with sp := 16#8 }.fault = none ∧ { at200 0x2300 with sp := 16#8 }.pc.toNat ≤ 0x0FFF ∧
      decode { at200 0x2300 with sp := 16#8 }.fetchWord = .instr (.call 0x300#12) ∧
      16 ≤ { at200 0x2300 with sp := 16#8 }.sp.toNat) ∧
    ((at200 0x00EE).fault = none ∧ decode (at200 0x00EE).fetchWord = .instr .ret ∧ (at200 0x00EE).sp.toNat = 0) := by decide

theorem witness_FatalConditionsArePrecise :
    step (at200 0x0000) = .next { at200 0x0000 with fault := some (.unknownOpcode 0x0000#16 0x200#16) } := rfl

theorem witness_UnlatchedStepAlwaysAnswers :
    { at200 0x00EE with sp := 16#8 }.fault = none ∧ { at200 0x00EE with sp := 16#8 }.sp.toNat ≤ 16 := by decide

/-- Both clauses of CompletedCycleRecordsKeySample and ProgramCounterAfterCycle: a completed and a faulting cycle. -/
theorem witness_cycle_completed_and_faulting :
    (after (at200 0x1FFF)).any (fun t => t.fault = none ∧ decode (at200 0x1FFF).fetchWord = .instr (.jp 0xFFF#12)) = true ∧
    (after (at200 0x00EE)).any (fun t => t.fault ≠ none) = true := by decide

/-- InstructionWritesOnlyItsPieces and InstructionWritesOnlyItsRegisters: V1 is no destination of `6005`. -/
theorem witness_InstructionWritesOnly :
    exec (.ldImm 0x0#4 0x05#8) State.reset = .next (State.reset.setV 0x0#4 0x05#8) ∧
    ¬ registersWritten defaultParams (.ldImm 0x0#4 0x05#8) 0x1#4 ∧ Piece.mem ∉ piecesWritten defaultParams (.ldImm 0x0#4 0x05#8) :=
  ⟨rfl, by simp [registersWritten], by decide⟩

theorem witness_SoundTimerIsNeverRead :
    (exec (.ldVxDt 0x0#4) State.reset = .next (State.reset.setV 0x0#4 0x00#8) ∧ ∀ x, Instr.ldVxDt 0x0#4 ≠ .ldStVx x) ∧
    exec (.ldStVx 0x0#4) State.reset = .next (State.reset.setSt 0x00#8) :=
  ⟨⟨rfl, fun _ h => nomatch h⟩, rfl⟩

theorem witness_RandomResult :
    (State.reset.supplyByte 0xA7#8).supplied = 0xA7#8 :: [] ∧ State.reset.supplied = [] := by decide

theorem witness_CallResult :
    { State.reset with sp := 15#8 }.sp.toNat < 16 ∧ 16 ≤ { State.reset with sp := 16#8 }.sp.toNat := by decide

theorem witness_ReturnResult :
    (1 ≤ { State.reset with sp := 1#8 }.sp.toNat ∧
      { State.reset with sp := 1#8 }.stack[{ State.reset with sp := 1#8 }.sp.toNat - 1]? = some 0x0000#16) ∧
    (1 ≤ { State.reset with sp := 16#8 }.sp.toNat ∧
      { State.reset with sp := 16#8 }.stack[{ State.reset with sp := 16#8 }.sp.toNat - 1]? = some 0x0000#16) ∧
    State.reset.sp.toNat = 0 ∧ 16 < { State.reset with sp := 17#8 }.sp.toNat := by decide

theorem witness_ReturnUndoesCall :
    { State.reset with sp := 15#8 }.sp.toNat < 16 ∧
    exec (.call 0x300#12) { State.reset with sp := 15#8 } =
      .next { State.reset with sp := 16#8, stack := State.reset.stack.set 15 0x0200#16, pc := 0x0300#16 } :=
  ⟨by decide, rfl⟩

/-- The canonical memory of DecimalDigitsStored, RegistersStored and their like, and an address outside the stored bytes, with the
stored bytes across the top of memory. -/
theorem witness_stores :
    (at200 0xF233).mem.wf (at200 0xF233).params = true ∧ (0x001#12 : Addr) ≠ ea 0x0FFE#16 0 ∧ (0x001#12 : Addr) ≠ ea 0x0FFE#16 1 ∧
    (0x001#12 : Addr) ≠ ea 0x0FFE#16 2 ∧ (∀ k : Reg, k.toNat ≤ (0x2#4 : Reg).toNat → (0x001#12 : Addr) ≠ ea 0x0FFE#16 k.toNat) ∧
    (0x2#4 : Reg).toNat ≤ (0x2#4 : Reg).toNat ∧ (0x2#4 : Reg).toNat < (0x3#4 : Reg).toNat := by decide

theorem witness_StoreThenLoadRestoresRegisters :
    State.reset.mem.wf State.reset.params = true ∧
    exec (.storeRegs 0x0#4) State.reset = .next (State.reset.memWrite 0x000#12 0x00#8) := ⟨by decide, rfl⟩

theorem witness_StoredCodeIsFetchedNext :
    (at200 0xF155).mem.wf (at200 0xF155).params = true ∧ (0x0#4 : Reg).toNat < (0x1#4 : Reg).toNat ∧
    ea (at200 0xF155).pc 0 = ea ((at200 0xF155).setI 0x0200#16).i (0x0#4 : Reg).toNat ∧
    exec (.storeRegs 0x1#4) ((at200 0xF155).setI 0x0200#16) =
      .next ((((at200 0xF155).setI 0x0200#16).memWrite 0x200#12 0x00#8).memWrite 0x201#12 0x00#8) := ⟨by decide, by decide, by decide, rfl⟩

/-- All four clauses of DrawInvertsCoveredPixels at the last row and column, with the font's first row 0xF0 as the sprite: covered
and on, covered and off, and a pixel that is not covered. -/
theorem witness_DrawInvertsCoveredPixels :
    State.reset.SpriteCovers 63#8 31#8 1 31 63 ∧ State.reset.SpriteCovers 63#8 31#8 1 31 0 ∧
    State.reset.pixel 31 63 = false ∧ (State.reset.setFb (Display.clear.toggle 31 63)).pixel 31 63 = true ∧
    (∀ row col, State.reset.SpriteCovers 63#8 31#8 1 row col → State.reset.pixel row col = false) ∧
    ¬ State.reset.SpriteCovers 63#8 31#8 1 0 63 := by
  refine ⟨⟨0, 0, by decide⟩, ⟨0, 1, by decide⟩, by decide, by decide,
    fun row col _ => by simp [State.pixel, Display.pixel, State.reset, State.resetWith], ?_⟩
  rintro ⟨r, c, hr, hc, hrow, -⟩
  obtain rfl : r = 0 := by omega
  exact absurd hrow (by decide)

theorem witness_DrawTwiceRestoresDisplay :
    (0x0#4 : Reg) ≠ vf ∧ (0x1#4 : Reg) ≠ vf ∧ ∃ t u, exec (.drw 0x0#4 0x1#4 0x5#4) State.reset = .next t ∧
      exec (.drw 0x0#4 0x1#4 0x5#4) t = .next u := ⟨by decide, by decide, _, _, rfl, rfl⟩

theorem witness_KeySkipResults : (0xA#4 : Key).toNat = ((State.reset.setV 5 0x1A#8).readV 5).toNat % 16 := by decide

/-- The lowest and the highest key. -/
theorem witness_WaitForKeyCompletesOnEdge :
    (State.reset.keyWasDown 0x0#4 = false ∧ (State.reset.setKey 0 true).1.keyDown 0x0#4 = true ∧
      ∀ k : Key, ¬ k.toNat < (0x0#4 : Key).toNat) ∧
    ((State.reset.setKey 15 true).1.keyWasDown 0xF#4 = false ∧ (State.reset.setKey 15 true).1.keyDown 0xF#4 = true ∧
      ∀ k : Key, k.toNat < (0xF#4 : Key).toNat →
        ¬ ((State.reset.setKey 15 true).1.keyWasDown k = false ∧ (State.reset.setKey 15 true).1.keyDown k = true)) := by decide

theorem witness_WaitForKeyParksWithoutEdge :
    (at200 0xF30A).fault = none ∧ (at200 0xF30A).pc.toNat ≤ 0x0FFF ∧
    decode (at200 0xF30A).fetchWord = .instr (.ldVxKey 0x3#4) ∧
    ∀ k : Key, (at200 0xF30A).keyDown k = true → (at200 0xF30A).keyWasDown k = true := by decide

theorem witness_SetKeyWritesOneLevel :
    ((15 : Int) = ((0xF#4 : Key).toNat : Int) ∧ (0xE#4 : Key) ≠ 0xF#4) ∧ ((-1 : Int) < 0 ∨ (15 : Int) < -1) ∧
    ((16 : Int) < 0 ∨ (15 : Int) < 16) := by decide

theorem witness_LoadProgramResult :
    3584 < (List.replicate 3585 0x00#8).length ∧ (List.replicate 3584 0x00#8).length ≤ 3584 ∧
    3583 < (List.replicate 3584 0x00#8).length ∧ (0x1FF#12 : Addr).toNat < 0x200 ∧
    0x200 + [0x60#8].length ≤ (0x201#12 : Addr).toNat := by
  rw [List.length_replicate, List.length_replicate]
  decide

theorem witness_LatchedMachineChangesOnlyKeysAndTimers :
    ({ State.reset with fault := some (.pcOutOfRange 0x1000#16) }).fault = some (.pcOutOfRange 0x1000#16) ∧
    ∀ bytes, Event.runCycle ≠ .loadProgram bytes := ⟨rfl, fun _ h => nomatch h⟩

/-- The two sides of the font, for the highest base that the parameter admits. -/
theorem witness_ResetValues_addresses :
    (0x1AF#12 : Addr).toNat < (432 : Fin 433).val ∧ (432 : Fin 433).val + 80 ≤ (0x200#12 : Addr).toNat := by decide

theorem witness_AddIndexResult :
    State.reset.params.fx1eSetsVF = false ∧
    (State.resetWith { defaultParams with fx1eSetsVF := true }).params.fx1eSetsVF = true := by decide

/-- A state with a true record, and so the hypothesis of StepKeepsLatchTruth with the latch set; with it clear, the reset state. -/
theorem witness_StepKeepsLatchTruth :
    State.LatchTrue { State.reset with pc := 0x1000#16, fault := some (.pcOutOfRange 0x1000#16) } ∧ State.reset.LatchTrue ∧
    (after State.reset).isSome = true := ⟨⟨rfl, by decide⟩, trivial, by decide⟩

/-- A state with one live return address and its invariant, about to return to the highest address a call can push. -/
theorem witness_StepKeepsInvariant :
    State.Inv { at200 0x00EE with sp := 1#8, stack := State.reset.stack.set 0 0x1001#16 } ∧
    (after { at200 0x00EE with sp := 1#8, stack := State.reset.stack.set 0 0x1001#16 }).isSome = true :=
  ⟨⟨by decide, by decide, by decide, by decide, by decide⟩, by decide⟩

/-- ReachableStatesHaveInvariant and ReachableLatchTellsTruth: a reached state that has a record latched. -/
theorem witness_Reachable :
    Reachable (applyEvent .runCycle State.reset).1 ∧ (applyEvent .runCycle State.reset).1.fault.isSome = true :=
  ⟨.event _ (.reset _), by decide⟩

end Sys2Proof.Machine.Tests
end

section
/-! Proofs, family 41 (arithmetic): which word an instruction is, what an instruction that writes one register, or a register and
the flag, leaves behind, and byte arithmetic as arithmetic modulo 256. -/

namespace Sys2Proof

/-! ### Encodings -/

/-- The decoder takes back the word of every instruction: the family, then the low nibble or low byte, and then the operands are
the fields the encoder put in (30_encoding.md R94, R96). -/
@[simp] theorem decode_encode (i : Instr) : decode (encode i) = .instr i := by
  cases i with
  | cls | ret => decide
  | seReg x y => simp [decode, encode, decodeFamily5]
  | sneReg x y => simp [decode, encode, decodeFamily9]
  | ldReg x y | orReg x y | andReg x y | xorReg x y | addReg x y | subReg x y | shr x y | subnReg x y | shl x y =>
    simp [decode, encode, decodeFamily8]
  | skp x | sknp x => simp [decode, encode, decodeFamilyE]
  | ldVxDt x | ldVxKey x | ldDtVx x | ldStVx x | addI x | ldFont x | ldBcd x | storeRegs x | loadRegs x =>
    simp [decode, encode, decodeFamilyF]
  | jp nnn | call nnn | ldI nnn | jpV0 nnn => simp [decode, encode]
  | seImm x nn | sneImm x nn | ldImm x nn | addImm x nn | rnd x nn => simp [decode, encode]
  | drw x y n => simp [decode, encode]

namespace Machine

/-- Since the decoder takes back every encoded word, only the value of the word is left to compute. -/
theorem encodedAs_iff {i : Instr} {n : Nat} : EncodedAs i n ↔ (encode i).toNat = n := by
  refine ⟨And.left, fun h => ⟨h, ?_⟩⟩
  subst h
  simp

/-- Format XNN: `base` is the family alone. -/
theorem encodedAs_of_encode_eq_encodeXNN {i : Instr} {op : Nibble} {x : Reg} {nn : Byte} {base : Nat}
    (h : encode i = encodeXNN op x nn) (hbase : base = 0x1000 * op.toNat) :
    EncodedAs i (base + 0x100 * x.toNat + nn.toNat) :=
  encodedAs_iff.mpr (by rw [h, hbase, toNat_encodeXNN])

/-- Format XY: `base` is the family with the fixed low nibble. -/
theorem encodedAs_of_encode_eq_encodeXYN {i : Instr} {op n : Nibble} {x y : Reg} {base : Nat}
    (h : encode i = encodeXYN op x y n) (hbase : base = 0x1000 * op.toNat + n.toNat) :
    EncodedAs i (base + 0x100 * x.toNat + 0x10 * y.toNat) :=
  encodedAs_iff.mpr (by rw [h, toNat_encodeXYN]; omega)

/-! ### Writing one register, and a register with its flag -/

/-- Another register file changes no other piece of state. -/
theorem onlyChanges_with_v (s : State) (v : Vector Byte 16) : OnlyChanges [.v] s { s with v := v } := by
  intro p hp
  cases p with
  | v => exact absurd (List.mem_singleton_self _) hp
  | mem => exact fun _ => rfl
  | provider => exact ⟨rfl, rfl⟩
  | i | pc | sp | stack | dt | st | fb | keys | prevKeys | fault | params => rfl

theorem setsRegister_setV (s : State) (x : Reg) (b : Byte) : SetsRegister (.next (s.setV x b)) s x b := by
  refine ⟨_, rfl, by simp, fun r hr => ?_, onlyChanges_with_v s _⟩
  simp [hr.symm]

/-- The flag is written last, so it is in VF whichever register VX is (40_cycle.md R129). -/
theorem setsRegisterAndFlag_setResultAndFlag (s : State) (x : Reg) (result flag : Byte) :
    SetsRegisterAndFlag (.next (s.setResultAndFlag x result flag)) s x result flag := by
  refine ⟨_, rfl, by simp, fun hx => ?_, fun r hrx hrf => ?_, onlyChanges_with_v s _⟩
  · simp [hx.symm]
  · simp [hrx.symm, hrf.symm]

/-! ### Byte arithmetic as arithmetic on numbers -/

theorem byte_add_eq (a b : Byte) : a + b = BitVec.ofNat 8 ((a.toNat + b.toNat) % 256) := by
  bv_omega

theorem byte_sub_eq (a b : Byte) : a - b = BitVec.ofNat 8 ((a.toNat + 256 - b.toNat) % 256) := by
  bv_omega

theorem carryFlag_eq (a b : Byte) : carryFlag a b = if 255 < a.toNat + b.toNat then 1#8 else 0#8 := by
  simp [carryFlag, flagByte]

theorem noBorrowFlag_eq (a b : Byte) : noBorrowFlag a b = if b.toNat ≤ a.toNat then 1#8 else 0#8 := by
  simp [noBorrowFlag, flagByte]

/-! ### The meanings -/

theorem exec_ldImm (x : Reg) (nn : Byte) (s : State) : exec (.ldImm x nn) s = .next (s.setV x nn) := rfl

theorem exec_addImm (x : Reg) (nn : Byte) (s : State) :
    exec (.addImm x nn) s = .next (s.setV x (s.readV x + nn)) := rfl

theorem exec_ldReg (x y : Reg) (s : State) : exec (.ldReg x y) s = .next (s.setV x (s.readV y)) := rfl

theorem exec_addReg (x y : Reg) (s : State) : exec (.addReg x y) s =
    .next (s.setResultAndFlag x (s.readV x + s.readV y) (carryFlag (s.readV x) (s.readV y))) := rfl

theorem exec_subReg (x y : Reg) (s : State) : exec (.subReg x y) s =
    .next (s.setResultAndFlag x (s.readV x - s.readV y) (noBorrowFlag (s.readV x) (s.readV y))) := rfl

/-! ### The obligations -/

/-- Settles O19: each of the three instructions is one register write. -/
theorem loadAddAndMoveResults : Obligations.LoadAddAndMoveResults := by
  intro s x y nn
  refine ⟨encodedAs_of_encode_eq_encodeXNN rfl rfl, encodedAs_of_encode_eq_encodeXNN rfl rfl,
    encodedAs_of_encode_eq_encodeXYN rfl rfl, ?_, ?_, ?_⟩
  · rw [exec_ldImm]
    exact setsRegister_setV s x nn
  · rw [exec_addImm, ← byte_add_eq]
    exact setsRegister_setV s x _
  · rw [exec_ldReg]
    exact setsRegister_setV s x _

/-- Settles O21: the sum and then the carry are written, so the carry remains when X is 15. -/
theorem addWithCarryResult : Obligations.AddWithCarryResult := by
  intro s x y
  refine ⟨encodedAs_of_encode_eq_encodeXYN rfl rfl, ?_⟩
  rw [exec_addReg, ← byte_add_eq, ← carryFlag_eq]
  exact setsRegisterAndFlag_setResultAndFlag s x _ _

/-- Settles O22: the difference and then the no-borrow flag of the old values are written, so the flag remains when X is 15. -/
theorem subtractResult : Obligations.SubtractResult := by
  intro s x y
  refine ⟨encodedAs_of_encode_eq_encodeXYN rfl rfl, ?_⟩
  rw [exec_subReg, ← byte_sub_eq, ← noBorrowFlag_eq]
  exact setsRegisterAndFlag_setResultAndFlag s x _ _

end Machine
end Sys2Proof
end

section
/-! Proofs, family 42 (control flow): the words of format NNN, and what an instruction that only redirects PC leaves behind. -/

namespace Sys2Proof.Machine

/-! ### Encodings -/

/-- Format NNN: `base` is the family alone. -/
theorem encodedAs_of_encode_eq_encodeNNN {i : Instr} {op : Nibble} {nnn : Addr} {base : Nat}
    (h : encode i = encodeNNN op nnn) (hbase : base = 0x1000 * op.toNat) : EncodedAs i (base + nnn.toNat) :=
  encodedAs_iff.mpr (by rw [h, hbase, toNat_encodeNNN])

/-! ### Redirecting PC -/

/-- Zero extension keeps the number (30_encoding.md R93). -/
@[simp] theorem toNat_zextAddr (nnn : Addr) : (zextAddr nnn).toNat = nnn.toNat :=
  BitVec.toNat_setWidth_of_le (by decide)

/-- Another PC changes no other piece of state. -/
theorem onlyChanges_setPc (s : State) (w : Word) : OnlyChanges [.pc] s (s.setPc w) := by
  intro p hp
  cases p with
  | pc => exact absurd (List.mem_singleton_self _) hp
  | v | mem => exact fun _ => rfl
  | provider => exact ⟨rfl, rfl⟩
  | i | sp | stack | dt | st | fb | keys | prevKeys | fault | params => rfl

/-! ### The meanings -/

theorem exec_jp (nnn : Addr) (s : State) : exec (.jp nnn) s = .next (s.setPc (zextAddr nnn)) := rfl

/-! ### The obligations -/

/-- Settles O25: the jump is one write of PC, and the zero extension keeps the number NNN. -/
theorem jumpResult : Obligations.JumpResult := by
  intro s nnn
  refine ⟨encodedAs_of_encode_eq_encodeNNN rfl rfl, _, exec_jp nnn s, ?_, onlyChanges_setPc s _⟩
  rw [State.setPc_pc, toNat_zextAddr]

end Sys2Proof.Machine
end

section
/-! Proofs, family 43 (index register and memory): what an instruction that only writes I leaves behind. -/

namespace Sys2Proof.Machine

/-! ### Writing the index register -/

/-- Another index register changes no other piece of state. -/
theorem onlyChanges_setI (s : State) (w : Word) : OnlyChanges [.i] s (s.setI w) := by
  intro p hp
  cases p with
  | i => exact absurd (List.mem_singleton_self _) hp
  | v | mem => exact fun _ => rfl
  | provider => exact ⟨rfl, rfl⟩
  | pc | sp | stack | dt | st | fb | keys | prevKeys | fault | params => rfl

/-! ### The meanings -/

theorem exec_ldI (nnn : Addr) (s : State) : exec (.ldI nnn) s = .next (s.setI (zextAddr nnn)) := rfl

/-! ### The obligations -/

/-- Settles O31: the load is one write of I, and the zero extension keeps the number NNN. -/
theorem loadIndexResult : Obligations.LoadIndexResult := by
  intro s nnn
  refine ⟨encodedAs_of_encode_eq_encodeNNN rfl rfl, _, exec_ldI nnn s, ?_, onlyChanges_setI s _⟩
  rw [State.setI_i, toNat_zextAddr]

end Sys2Proof.Machine
end

section
/-! Proofs, family 44 (graphics): the cleared display, and what an instruction that only replaces the display leaves behind. -/

namespace Sys2Proof.Machine

/-! ### The display -/

/-- Every row of the cleared display is zero, and zero has no bit on. -/
@[simp] theorem Display.pixel_clear (y : Fin 32) (x : Fin 64) : Display.clear.pixel y x = false := by
  unfold Display.pixel Display.clear
  rw [Vector.getElem_replicate, BitVec.getLsbD_zero]

@[simp] theorem State.pixel_setFb (s : State) (f : Display) (y : Fin 32) (x : Fin 64) :
    (s.setFb f).pixel y x = f.pixel y x := rfl

/-- Another display changes no other piece of state. -/
theorem onlyChanges_setFb (s : State) (f : Display) : OnlyChanges [.fb] s (s.setFb f) := by
  intro p hp
  cases p with
  | fb => exact absurd (List.mem_singleton_self _) hp
  | v | mem => exact fun _ => rfl
  | provider => exact ⟨rfl, rfl⟩
  | i | pc | sp | stack | dt | st | keys | prevKeys | fault | params => rfl

/-! ### The meanings -/

theorem exec_cls (s : State) : exec .cls s = .next (s.setFb Display.clear) := rfl

/-! ### The obligations -/

/-- Settles O40: the clear is one write of the display, which is then the cleared display. -/
theorem clearScreenResult : Obligations.ClearScreenResult := by
  refine ⟨encodedAs_iff.mpr rfl, fun s => ⟨_, exec_cls s, fun y x => ?_, onlyChanges_setFb s _⟩⟩
  rw [State.pixel_setFb, Display.pixel_clear]

end Sys2Proof.Machine
end

section
/-! Proofs, family 45 (timers): the words of format X, and what an instruction that only writes a timer leaves behind. -/

namespace Sys2Proof.Machine

/-! ### Encodings -/

/-- Format X: `base` is the family with the fixed low byte. -/
theorem encodedAs_of_encode_eq_encodeXNN_fixed {i : Instr} {op : Nibble} {x : Reg} {nn : Byte} {base : Nat}
    (h : encode i = encodeXNN op x nn) (hbase : base = 0x1000 * op.toNat + nn.toNat) :
    EncodedAs i (base + 0x100 * x.toNat) :=
  encodedAs_iff.mpr (by rw [h, toNat_encodeXNN]; omega)

/-! ### Writing a timer -/

/-- Another delay timer changes no other piece of state. -/
theorem onlyChanges_setDt (s : State) (b : Byte) : OnlyChanges [.dt] s (s.setDt b) := by
  intro p hp
  cases p with
  | dt => exact absurd (List.mem_singleton_self _) hp
  | v | mem => exact fun _ => rfl
  | provider => exact ⟨rfl, rfl⟩
  | i | pc | sp | stack | st | fb | keys | prevKeys | fault | params => rfl

/-- Another sound timer changes no other piece of state. -/
theorem onlyChanges_setSt (s : State) (b : Byte) : OnlyChanges [.st] s (s.setSt b) := by
  intro p hp
  cases p with
  | st => exact absurd (List.mem_singleton_self _) hp
  | v | mem => exact fun _ => rfl
  | provider => exact ⟨rfl, rfl⟩
  | i | pc | sp | stack | dt | fb | keys | prevKeys | fault | params => rfl

/-! ### The meanings -/

theorem exec_ldVxDt (x : Reg) (s : State) : exec (.ldVxDt x) s = .next (s.setV x s.dt) := rfl

theorem exec_ldDtVx (x : Reg) (s : State) : exec (.ldDtVx x) s = .next (s.setDt (s.readV x)) := rfl

theorem exec_ldStVx (x : Reg) (s : State) : exec (.ldStVx x) s = .next (s.setSt (s.readV x)) := rfl

/-! ### The obligations -/

/-- Settles O43: the first of the three instructions is one write of VX, the second one of DT, the third one of ST. -/
theorem timerInstructionResults : Obligations.TimerInstructionResults := by
  intro s x
  refine ⟨encodedAs_of_encode_eq_encodeXNN_fixed rfl rfl, encodedAs_of_encode_eq_encodeXNN_fixed rfl rfl,
    encodedAs_of_encode_eq_encodeXNN_fixed rfl rfl, ?_, ?_, ?_⟩
  · rw [exec_ldVxDt]
    exact setsRegister_setV s x s.dt
  · exact ⟨_, exec_ldDtVx x s, State.setDt_dt s _, onlyChanges_setDt s _⟩
  · exact ⟨_, exec_ldStVx x s, State.setSt_st s _, onlyChanges_setSt s _⟩

end Sys2Proof.Machine
end

section
/-! Proofs, family 60 (boundary operations): what a tick leaves behind, and when the sound bit is on. -/

namespace Sys2Proof.Machine

/-! ### The tick -/

/-- A tick changes no piece of state but the two timers. -/
theorem onlyChanges_tickTimers (s : State) : OnlyChanges [.dt, .st] s s.tickTimers := by
  intro p hp
  cases p with
  | dt | st => exact absurd (by simp) hp
  | v | mem => exact fun _ => rfl
  | provider => exact ⟨rfl, rfl⟩
  | i | pc | sp | stack | fb | keys | prevKeys | fault | params => rfl

/-! ### The sound bit -/

theorem State.shouldPlaySound_iff (s : State) : s.shouldPlaySound = true ↔ s.st.toNat ≠ 0 :=
  calc s.shouldPlaySound = true
    _ ↔ s.st ≠ 0x00#8 := bne_iff_ne
    _ ↔ s.st.toNat ≠ 0 := BitVec.toNat_ne_iff_ne.symm

/-- Asking for the sound bit is no change of state. -/
theorem applyEvent_shouldPlaySound (s : State) : applyEvent .shouldPlaySound s = (s, .sound s.shouldPlaySound) := rfl

/-! ### The obligations -/

/-- Settles O44: each timer is its own countdown, which is subtraction stopped at 0, and no other piece is written. -/
theorem tickDecrementsTimers : Obligations.TickDecrementsTimers := by
  intro s
  refine ⟨?_, ?_, onlyChanges_tickTimers s⟩
  · rw [State.tickTimers_dt, toNat_countDown]
  · rw [State.tickTimers_st, toNat_countDown]

/-- Settles O51: a byte differs from 0x00 exactly when its number is not 0, and the operation hands the state back. -/
theorem soundBitIsTimerNonZero : Obligations.SoundBitIsTimerNonZero := by
  intro s
  refine ⟨s.shouldPlaySound_iff, ?_⟩
  rw [applyEvent_shouldPlaySound]

end Sys2Proof.Machine
end

section
/-! Proofs, family 30 (encoding): decoding and encoding are inverse, and the decode procedure agrees with the table of masks. -/

namespace Sys2Proof

/-! ### Each word has one meaning -/

/-- A field of known value, as the literal that the encoder writes. -/
theorem field_eq_of_toNat {n k : Nat} {field : BitVec n} (h : field.toNat = k) : field = BitVec.ofNat n k := by
  rw [← h, BitVec.ofNat_toNat, BitVec.setWidth_eq]

section
variable {w : Word} {i : Instr} {op n : Nibble} {nn : Byte}

theorem encodeNNN_of_fields (hop : opField w = op) : encodeNNN op (nnnField w) = w :=
  hop ▸ encodeNNN_fields w

theorem encodeXNN_of_fields (hop : opField w = op) (hnn : nnField w = nn) : encodeXNN op (xField w) nn = w :=
  hop ▸ hnn ▸ encodeXNN_fields w

theorem encodeXYN_of_fields (hop : opField w = op) (hn : nField w = n) : encodeXYN op (xField w) (yField w) n = w :=
  hop ▸ hn ▸ encodeXYN_fields w

theorem encode_of_decodeFamily0 (h : decodeFamily0 w = .instr i) : encode i = w := by
  unfold decodeFamily0 at h
  repeat' split at h
  case isFalse.isFalse => cases h
  all_goals
    next hw =>
      cases h
      exact hw.symm

theorem encode_of_decodeFamily5 (hop : opField w = 0x5#4) (h : decodeFamily5 w = .instr i) : encode i = w := by
  unfold decodeFamily5 at h
  split at h <;> cases h
  exact encodeXYN_of_fields hop ‹nField w = _›

theorem encode_of_decodeFamily9 (hop : opField w = 0x9#4) (h : decodeFamily9 w = .instr i) : encode i = w := by
  unfold decodeFamily9 at h
  split at h <;> cases h
  exact encodeXYN_of_fields hop ‹nField w = _›

/-- Each low nibble that the decoder names is the one that the encoder writes. -/
theorem encode_of_decodeFamily8 (hop : opField w = 0x8#4) (h : decodeFamily8 w = .instr i) : encode i = w := by
  unfold decodeFamily8 at h
  split at h <;> cases h
  all_goals exact encodeXYN_of_fields hop (field_eq_of_toNat ‹(nField w).toNat = _›)

/-- Each low byte that the decoder names is the one that the encoder writes. -/
theorem encode_of_decodeFamilyE (hop : opField w = 0xE#4) (h : decodeFamilyE w = .instr i) : encode i = w := by
  unfold decodeFamilyE at h
  repeat' split at h
  all_goals cases h
  all_goals exact encodeXNN_of_fields hop ‹nnField w = _›

/-- Each low byte that the decoder names is the one that the encoder writes. -/
theorem encode_of_decodeFamilyF (hop : opField w = 0xF#4) (h : decodeFamilyF w = .instr i) : encode i = w := by
  unfold decodeFamilyF at h
  repeat' split at h
  all_goals cases h
  all_goals exact encodeXNN_of_fields hop ‹nnField w = _›

/-- The decoder drops no bit: each of its cases (30_encoding.md R94) fixes the bits that its operands do not hold. -/
theorem encode_of_decode (h : decode w = .instr i) : encode i = w := by
  unfold decode at h
  split at h
  case h_1 => exact encode_of_decodeFamily0 h
  case h_6 hop => exact encode_of_decodeFamily5 (field_eq_of_toNat hop) h
  case h_9 hop => exact encode_of_decodeFamily8 (field_eq_of_toNat hop) h
  case h_10 hop => exact encode_of_decodeFamily9 (field_eq_of_toNat hop) h
  case h_15 hop => exact encode_of_decodeFamilyE (field_eq_of_toNat hop) h
  case h_16 =>
    have hop : (opField w).toNat = 0xF := by
      have hlt := (opField w).isLt
      simp only [imp_false] at *
      omega
    exact encode_of_decodeFamilyF (field_eq_of_toNat hop) h
  case h_2 hop | h_3 hop | h_11 hop | h_12 hop =>
    cases h
    exact encodeNNN_of_fields (field_eq_of_toNat hop)
  case h_4 hop | h_5 hop | h_7 hop | h_8 hop | h_13 hop =>
    cases h
    exact encodeXNN_of_fields (field_eq_of_toNat hop) rfl
  case h_14 hop =>
    cases h
    exact encodeXYN_of_fields (field_eq_of_toNat hop) rfl

end

/-! ### The decoder and the table of masks -/

/-- The table of 30_encoding.md R96 holds the row of every instruction. -/
theorem Instr.row_mem_opcodeRows (i : Instr) : i.row ∈ opcodeRows := by
  cases i <;> simp [Instr.row, opcodeRows, rowsLow, rowsAlu, rowsHigh, rowsMisc]

open Laws.SelectsItsRow in
/-- An instruction's word selects the instruction's row. -/
theorem selects_encode (i : Instr) : i.row.selects (encode i) = true :=
  match i with
  | .cls => cls
  | .ret => ret
  | .jp nnn => jp nnn
  | .call nnn => call nnn
  | .seImm x nn => seImm x nn
  | .sneImm x nn => sneImm x nn
  | .seReg x y => seReg x y
  | .ldImm x nn => ldImm x nn
  | .addImm x nn => addImm x nn
  | .ldReg x y => ldReg x y
  | .orReg x y => orReg x y
  | .andReg x y => andReg x y
  | .xorReg x y => xorReg x y
  | .addReg x y => addReg x y
  | .subReg x y => subReg x y
  | .shr x y => shr x y
  | .subnReg x y => subnReg x y
  | .shl x y => shl x y
  | .sneReg x y => sneReg x y
  | .ldI nnn => ldI nnn
  | .jpV0 nnn => jpV0 nnn
  | .rnd x nn => rnd x nn
  | .drw x y n => drw x y n
  | .skp x => skp x
  | .sknp x => sknp x
  | .ldVxDt x => ldVxDt x
  | .ldVxKey x => ldVxKey x
  | .ldDtVx x => ldDtVx x
  | .ldStVx x => ldStVx x
  | .addI x => addI x
  | .ldFont x => ldFont x
  | .ldBcd x => ldBcd x
  | .storeRegs x => storeRegs x
  | .loadRegs x => loadRegs x

/-- No two rows agree on the bits that both of them fix. -/
theorem opcodeRows_disjoint :
    ∀ r ∈ opcodeRows, ∀ q ∈ opcodeRows, r.bits &&& q.mask = q.bits &&& r.mask → r = q := by
  decide

theorem OpcodeRow.selects_iff {r : OpcodeRow} {w : Word} : r.selects w = true ↔ w &&& r.mask = r.bits := by
  simp [OpcodeRow.selects]

/-- A word selects at most one row. -/
theorem selected_row_unique {r q : OpcodeRow} {w : Word} (hr : r ∈ opcodeRows) (hq : q ∈ opcodeRows)
    (hrw : r.selects w = true) (hqw : q.selects w = true) : r = q := by
  rw [OpcodeRow.selects_iff] at hrw hqw
  refine opcodeRows_disjoint r hr q hq ?_
  rw [← hrw, ← hqw, BitVec.and_assoc, BitVec.and_assoc, BitVec.and_comm r.mask]

theorem wellFormedWord_iff {w : Word} : wellFormedWord w = true ↔ ∃ r ∈ opcodeRows, r.selects w = true := by
  simp [wellFormedWord]

/-! What a selected row fixes of the fields, by its mask. -/

section
variable {r : OpcodeRow} {w : Word}

theorem opField_and (w m : Word) : opField (w &&& m) = opField w &&& opField m := BitVec.extractLsb'_and

theorem nField_and (w m : Word) : nField (w &&& m) = nField w &&& nField m := BitVec.extractLsb'_and

theorem nnField_and (w m : Word) : nnField (w &&& m) = nnField w &&& nnField m := BitVec.extractLsb'_and

theorem opField_of_selects (hr : r ∈ opcodeRows) (h : r.selects w = true) : opField w = r.bits.extractLsb' 12 4 := by
  have hmask : ∀ q ∈ opcodeRows, opField q.mask = BitVec.allOnes 4 := by decide
  calc opField w
    _ = opField (w &&& r.mask) := by rw [opField_and, hmask r hr, BitVec.and_allOnes]
    _ = opField r.bits := by rw [OpcodeRow.selects_iff.mp h]

theorem nField_of_selects (hmask : r.mask = 0xF00F#16) (h : r.selects w = true) : nField w = r.bits.extractLsb' 0 4 :=
  calc nField w
    _ = nField (w &&& 0xF00F#16) := by rw [nField_and]; exact BitVec.and_allOnes.symm
    _ = nField r.bits := by rw [← hmask, OpcodeRow.selects_iff.mp h]

theorem nnField_of_selects (hmask : r.mask = 0xF0FF#16) (h : r.selects w = true) : nnField w = r.bits.extractLsb' 0 8 :=
  calc nnField w
    _ = nnField (w &&& 0xF0FF#16) := by rw [nnField_and]; exact BitVec.and_allOnes.symm
    _ = nnField r.bits := by rw [← hmask, OpcodeRow.selects_iff.mp h]

theorem eq_of_selects (hmask : r.mask = 0xFFFF#16) (h : r.selects w = true) : w = r.bits := by
  rw [← OpcodeRow.selects_iff.mp h, hmask]
  exact BitVec.and_allOnes.symm

/-- A word that selects a row decodes: the bits that the row fixes are those the decoder looks at. -/
theorem decode_of_selects (hr : r ∈ opcodeRows) (h : r.selects w = true) : ∃ i, decode w = .instr i := by
  have hop := opField_of_selects hr h
  have hn := (nField_of_selects · h)
  have hnn := (nnField_of_selects · h)
  have hw := (eq_of_selects · h)
  simp only [opcodeRows, rowsLow, rowsAlu, rowsHigh, rowsMisc, List.cons_append, List.nil_append, List.mem_cons,
    List.not_mem_nil, or_false] at hr
  casesm* _ ∨ _
  all_goals subst r
  case inl => exact ⟨.cls, hw rfl ▸ by decide⟩
  case inr.inl => exact ⟨.ret, hw rfl ▸ by decide⟩
  all_goals
    simp [decode, hop, decodeFamily5, decodeFamily8, decodeFamily9, hn, decodeFamilyE, decodeFamilyF, hnn]

end

/-- The unknown verdict carries the word itself. -/
theorem eq_of_decode_unknown {w u : Word} (h : decode w = .unknown u) : u = w := by
  unfold decode decodeFamily0 decodeFamily5 decodeFamily8 decodeFamily9 decodeFamilyE decodeFamilyF at h
  repeat' split at h
  all_goals cases h
  all_goals rfl

/-- A word is unknown exactly when it selects no row. -/
theorem decode_eq_unknown_iff {w : Word} : decode w = .unknown w ↔ wellFormedWord w = false := by
  rw [← Bool.not_eq_true, wellFormedWord_iff]
  constructor
  · rintro hd ⟨r, hr, hrw⟩
    obtain ⟨i, hi⟩ := decode_of_selects hr hrw
    exact nomatch hd.symm.trans hi
  · intro h
    cases hd : decode w with
    | instr i => exact absurd ⟨i.row, i.row_mem_opcodeRows, encode_of_decode hd ▸ selects_encode i⟩ h
    | unknown u => rw [eq_of_decode_unknown hd]

/-! ### The obligations -/

/-- Settles O2: the second part is the first one on the word that the two bytes make up. -/
theorem decodeOfEncodeIsIdentity : Obligations.DecodeOfEncodeIsIdentity := by
  refine ⟨decode_encode, fun i rest => ?_⟩
  simp only [encodeBytes, List.cons_append, List.nil_append, decodeBytes, wordOfBytes_high_low, decode_encode]

/-- Settles O3: each case of the decoder fixes the bits that its operands do not hold. -/
theorem encodeOfDecodeIsIdentity : Obligations.EncodeOfDecodeIsIdentity :=
  fun _ _ => encode_of_decode

/-- Settles O4: the word of the decoded instruction selects its row, and rows are disjoint; a word that selects a row decodes. -/
theorem decodeAgreesWithOpcodeTable : Obligations.DecodeAgreesWithOpcodeTable := by
  refine ⟨fun w i hd => ⟨i.row_mem_opcodeRows, fun r hr => ?_⟩, fun _ => decode_eq_unknown_iff,
    fun _ _ => eq_of_decode_unknown⟩
  have hi : i.row.selects w = true := encode_of_decode hd ▸ selects_encode i
  exact ⟨fun hrw => selected_row_unique hr i.row_mem_opcodeRows hrw hi, fun e => e ▸ hi⟩

/-- Settles O1: each of the written-out words is decoded by evaluation. -/
theorem sampleWordsDecode : Obligations.SampleWordsDecode := by
  unfold Obligations.SampleWordsDecode
  decide

end Sys2Proof
end

section
/-! Proofs: what the instructions with more than one path can do, and the frame of every shared operation, from which the frame
of every instruction follows (10_state.md R37). -/

namespace Sys2Proof.Machine

/-! ### The instructions with more than one path -/

theorem exec_call_push {s : State} (nnn : Addr) (h : s.sp.toNat < 16) :
    exec (.call nnn) s = .next ((s.push s.pc).setPc (zextAddr nnn)) := by
  simp [exec, execCall, Nat.not_le.mpr h]

theorem exec_call_overflow {s : State} (nnn : Addr) (h : 16 ≤ s.sp.toNat) :
    exec (.call nnn) s = raiseInExecute s (.stackOverflow (encode (.call nnn))) := by
  simp [exec, execCall, h]

theorem exec_ret_pop {s : State} {w : Word} (h : s.sp.toNat ≠ 0) (htop : s.top = some w) :
    exec .ret s = .next (s.drop.setPc w) := by
  simp [exec, execRet, h, htop]

theorem exec_ret_underflow {s : State} (h : s.sp.toNat = 0) :
    exec .ret s = raiseInExecute s (.stackUnderflow 0x00EE#16) := by
  simp [exec, execRet, h, encode]

theorem exec_ret_illegal {s : State} (h : 16 < s.sp.toNat) : exec .ret s = .fault (.illegalStackPointer s.sp) := by
  have hout : ¬ s.sp.toNat - 1 < 16 := by omega
  have htop : s.top = none := by simp [State.top, hout]
  have h0 : s.sp.toNat ≠ 0 := by omega
  simp [exec, execRet, h0, htop]

theorem exec_ldVxKey_park {s : State} (x : Reg) (h : s.firstEdge = none) : exec (.ldVxKey x) s = .next s.rewind := by
  simp [exec, execLdVxKey, h]

theorem exec_ldVxKey_edge {s : State} (x : Reg) {k : Nat} (h : s.firstEdge = some k) :
    exec (.ldVxKey x) s = .next (s.setV x (BitVec.ofNat 8 k)) := by
  simp [exec, execLdVxKey, h]

/-- Everything a call that answers a next state can do. -/
theorem exec_call_cases {s t : State} {nnn : Addr} (h : exec (.call nnn) s = .next t) :
    (16 ≤ s.sp.toNat ∧ t = { s.rewind with fault := some (.stackOverflow (encode (.call nnn)) s.rewind.pc) }) ∨
    (s.sp.toNat < 16 ∧ t = (s.push s.pc).setPc (zextAddr nnn)) := by
  rcases Nat.lt_or_ge s.sp.toNat 16 with hsp | hsp
  · rw [exec_call_push nnn hsp] at h
    cases h
    exact .inr ⟨hsp, rfl⟩
  · rw [exec_call_overflow nnn hsp] at h
    exact .inl ⟨hsp, takeFault_eq_next.mp h⟩

/-- Everything a return that answers a next state can do. -/
theorem exec_ret_cases {s t : State} (h : exec .ret s = .next t) :
    (s.sp.toNat = 0 ∧ t = { s.rewind with fault := some (.stackUnderflow 0x00EE#16 s.rewind.pc) }) ∨
    (s.sp.toNat ≠ 0 ∧ ∃ w, s.top = some w ∧ t = s.drop.setPc w) := by
  by_cases hsp : s.sp.toNat = 0
  · rw [exec_ret_underflow hsp] at h
    exact .inl ⟨hsp, takeFault_eq_next.mp h⟩
  · refine .inr ⟨hsp, ?_⟩
    cases htop : s.top with
    | none => simp [exec, execRet, hsp, htop] at h
    | some w =>
      rw [exec_ret_pop hsp htop] at h
      cases h
      exact ⟨w, rfl, rfl⟩

/-- Everything FX0A can do: it parks, or it completes on the first edge. -/
theorem exec_ldVxKey_cases {s t : State} {x : Reg} (h : exec (.ldVxKey x) s = .next t) :
    (s.firstEdge = none ∧ t = s.rewind) ∨ ∃ k, s.firstEdge = some k ∧ t = s.setV x (BitVec.ofNat 8 k) := by
  cases hk : s.firstEdge with
  | none =>
    rw [exec_ldVxKey_park x hk] at h
    cases h
    exact .inl ⟨rfl, rfl⟩
  | some k =>
    rw [exec_ldVxKey_edge x hk] at h
    cases h
    exact .inr ⟨k, rfl, rfl⟩

/-! ### Frames in general -/

theorem Piece.same_trans {p : Piece} {s t u : State} (h : p.Same s t) (h' : p.Same t u) : p.Same s u := by
  cases p with
  | v | mem => exact fun a => (h' a).trans (h a)
  | provider => exact ⟨h'.1.trans h.1, h'.2.trans h.2⟩
  | i | pc | sp | stack | dt | st | fb | keys | prevKeys | fault | params => exact Eq.trans h' h

theorem OnlyChanges.refl (ps : List Piece) (s : State) : OnlyChanges ps s s := by
  intro p _
  cases p with
  | v | mem => exact fun _ => rfl
  | provider => exact ⟨rfl, rfl⟩
  | i | pc | sp | stack | dt | st | fb | keys | prevKeys | fault | params => rfl

/-- Two changes one after the other change the pieces of either. -/
theorem OnlyChanges.trans {ps qs : List Piece} {s t u : State} (h : OnlyChanges ps s t) (h' : OnlyChanges qs t u) :
    OnlyChanges (ps ++ qs) s u := fun p hp =>
  Piece.same_trans (h p fun hm => hp (List.mem_append_left _ hm)) (h' p fun hm => hp (List.mem_append_right _ hm))

theorem OnlyChanges.mono {ps qs : List Piece} {s t : State} (hsub : ps ⊆ qs) (h : OnlyChanges ps s t) : OnlyChanges qs s t :=
  fun p hp => h p fun hm => hp (hsub hm)

/-! ### The frame of each shared operation -/

theorem onlyChanges_with_fault (s : State) (f : Option FaultRecord) : OnlyChanges [.fault] s { s with fault := f } := by
  intro p hp
  cases p with
  | fault => exact absurd (List.mem_singleton_self _) hp
  | v | mem => exact fun _ => rfl
  | provider => exact ⟨rfl, rfl⟩
  | i | pc | sp | stack | dt | st | fb | keys | prevKeys | params => rfl

theorem onlyChanges_memWrite (s : State) (a : Addr) (b : Byte) : OnlyChanges [.mem] s (s.memWrite a b) := by
  intro p hp
  cases p with
  | mem => exact absurd (List.mem_singleton_self _) hp
  | v => exact fun _ => rfl
  | provider => exact ⟨rfl, rfl⟩
  | i | pc | sp | stack | dt | st | fb | keys | prevKeys | fault | params => rfl

theorem onlyChanges_push (s : State) (w : Word) : OnlyChanges [.sp, .stack] s (s.push w) := by
  intro p hp
  cases p with
  | sp | stack => exact absurd (by simp) hp
  | v | mem => exact fun _ => rfl
  | provider => exact ⟨rfl, rfl⟩
  | i | pc | dt | st | fb | keys | prevKeys | fault | params => rfl

theorem onlyChanges_drop (s : State) : OnlyChanges [.sp] s s.drop := by
  intro p hp
  cases p with
  | sp => exact absurd (List.mem_singleton_self _) hp
  | v | mem => exact fun _ => rfl
  | provider => exact ⟨rfl, rfl⟩
  | i | pc | stack | dt | st | fb | keys | prevKeys | fault | params => rfl

theorem onlyChanges_afterDraw (s : State) : OnlyChanges [.provider] s s.afterDraw := by
  intro p hp
  cases p with
  | provider => exact absurd (List.mem_singleton_self _) hp
  | v | mem => exact fun _ => rfl
  | i | pc | sp | stack | dt | st | fb | keys | prevKeys | fault | params => rfl

theorem onlyChanges_skipIf (s : State) (c : Bool) : OnlyChanges [.pc] s (s.skipIf c) := by
  cases c with
  | false => exact .refl _ s
  | true => exact onlyChanges_setPc s _

/-- A fatal condition taken inside an instruction. -/
theorem onlyChanges_rewind_with_fault (s : State) (f : Option FaultRecord) :
    OnlyChanges [.pc, .fault] s { s.rewind with fault := f } :=
  (onlyChanges_setPc s _).trans (onlyChanges_with_fault s.rewind f)

theorem onlyChanges_storeFirst (s : State) (n : Nat) : OnlyChanges [.mem] s (s.storeFirst n) := by
  induction n with
  | zero => exact .refl _ s
  | succ k ih => exact (ih.trans (onlyChanges_memWrite _ _ _)).mono (by simp)

theorem onlyChanges_loadFirst (s : State) (n : Nat) : OnlyChanges [.v] s (s.loadFirst n) := by
  induction n with
  | zero => exact .refl _ s
  | succ k ih => exact (ih.trans (onlyChanges_with_v _ _)).mono (by simp)

theorem onlyChanges_addIndex (s : State) (setsVF : Bool) (x : Reg) :
    OnlyChanges (if setsVF then [.i, .v] else [.i]) s (s.addIndex setsVF x) := by
  cases setsVF with
  | false => exact onlyChanges_setI s _
  | true => exact (onlyChanges_setI s _).trans (onlyChanges_with_v _ _)

/-! ### The sound timer set beforehand: no operation reads it -/

theorem storeFirst_setSt (s : State) (b : Byte) (n : Nat) : (s.setSt b).storeFirst n = (s.storeFirst n).setSt b := by
  induction n with
  | zero => rfl
  | succ k ih => rw [State.storeFirst, ih]; rfl

theorem loadFirst_setSt (s : State) (b : Byte) (n : Nat) : (s.setSt b).loadFirst n = (s.loadFirst n).setSt b := by
  induction n with
  | zero => rfl
  | succ k ih => rw [State.loadFirst, ih]; rfl

theorem drawRows_setSt (s : State) (b x0 y0 : Byte) (n : Nat) : (s.setSt b).drawRows x0 y0 n = s.drawRows x0 y0 n := by
  induction n with
  | zero => rfl
  | succ k ih => rw [State.drawRows, ih]; rfl

theorem skipIf_setSt (s : State) (b : Byte) (c : Bool) : (s.setSt b).skipIf c = (s.skipIf c).setSt b := by
  cases c <;> rfl

theorem addIndex_setSt (s : State) (b : Byte) (c : Bool) (x : Reg) : (s.setSt b).addIndex c x = (s.addIndex c x).setSt b := by
  cases c <;> rfl

/-- Every instruction but FX18 carries ST through. -/
theorem exec_setSt {i : Instr} {s t : State} (b : Byte) (hi : ∀ x, i ≠ .ldStVx x) (h : exec i s = .next t) :
    exec i (s.setSt b) = .next (t.setSt b) := by
  cases i with
  | ldStVx x => exact absurd rfl (hi x)
  | cls | jp | jpV0 | ldI | ldFont | ldDtVx | rnd | ldBcd => cases h; rfl
  | ldImm | addImm | ldReg | orReg | andReg | xorReg | addReg | subReg | shr | subnReg | shl | ldVxDt => cases h; rfl
  | seImm | sneImm | seReg | sneReg | skp | sknp => cases h; exact congrArg _ (skipIf_setSt s b _)
  | addI x => cases h; exact congrArg _ (addIndex_setSt s b _ x)
  | storeRegs x => cases h; exact congrArg _ (storeFirst_setSt s b _)
  | loadRegs x => cases h; exact congrArg _ (loadFirst_setSt s b _)
  | drw x y n =>
    cases h
    simp only [exec, execDrw, drawRows_setSt]
    rfl
  | ldVxKey x =>
    obtain ⟨hk, rfl⟩ | ⟨k, hk, rfl⟩ := exec_ldVxKey_cases h
    · exact exec_ldVxKey_park x hk
    · exact exec_ldVxKey_edge x hk
  | call nnn =>
    obtain ⟨hsp, rfl⟩ | ⟨hsp, rfl⟩ := exec_call_cases h
    · exact exec_call_overflow nnn hsp
    · exact exec_call_push nnn hsp
  | ret =>
    obtain ⟨hsp, rfl⟩ | ⟨hsp, w, htop, rfl⟩ := exec_ret_cases h
    · exact exec_ret_underflow hsp
    · exact exec_ret_pop hsp htop

/-! ### The obligations -/

/-- Settles O16: an instruction is made of shared operations, and its pieces are theirs. -/
theorem instructionWritesOnlyItsPieces : Obligations.InstructionWritesOnlyItsPieces := by
  intro i s t h
  cases i with
  | cls => cases h; exact onlyChanges_setFb s _
  | jp | jpV0 => cases h; exact onlyChanges_setPc s _
  | seImm | sneImm | seReg | sneReg | skp | sknp => cases h; exact onlyChanges_skipIf s _
  | ldImm | addImm | ldReg | orReg | andReg | xorReg | addReg | subReg | shr | subnReg | shl | ldVxDt =>
    cases h; exact onlyChanges_with_v s _
  | ldI | ldFont => cases h; exact onlyChanges_setI s _
  | ldDtVx => cases h; exact onlyChanges_setDt s _
  | ldStVx => cases h; exact onlyChanges_setSt s _
  | addI x => cases h; exact onlyChanges_addIndex s _ x
  | rnd => cases h; exact ((onlyChanges_afterDraw s).trans (onlyChanges_with_v _ _)).mono (by simp [piecesWritten])
  | drw => cases h; exact ((onlyChanges_setFb s _).trans (onlyChanges_with_v _ _)).mono (by simp [piecesWritten])
  | ldBcd =>
    cases h
    exact (((onlyChanges_memWrite s _ _).trans (onlyChanges_memWrite _ _ _)).trans (onlyChanges_memWrite _ _ _)).mono
      (by simp [piecesWritten])
  | storeRegs => cases h; exact onlyChanges_storeFirst s _
  | loadRegs => cases h; exact onlyChanges_loadFirst s _
  | ldVxKey x =>
    obtain ⟨-, rfl⟩ | ⟨k, -, rfl⟩ := exec_ldVxKey_cases h
    · exact (onlyChanges_setPc s _).mono (by simp [piecesWritten])
    · exact (onlyChanges_with_v s _).mono (by simp [piecesWritten])
  | call nnn =>
    obtain ⟨-, rfl⟩ | ⟨-, rfl⟩ := exec_call_cases h
    · exact (onlyChanges_rewind_with_fault s _).mono (by simp [piecesWritten])
    · exact ((onlyChanges_push s _).trans (onlyChanges_setPc _ _)).mono (by simp [piecesWritten])
  | ret =>
    obtain ⟨-, rfl⟩ | ⟨-, w, -, rfl⟩ := exec_ret_cases h
    · exact (onlyChanges_rewind_with_fault s _).mono (by simp [piecesWritten])
    · exact ((onlyChanges_drop s).trans (onlyChanges_setPc _ _)).mono (by simp [piecesWritten])

/-- Settles O17: where the instruction writes no register its frame of pieces says so; each write elsewhere is to a register of
the list. -/
theorem instructionWritesOnlyItsRegisters : Obligations.InstructionWritesOnlyItsRegisters := by
  intro i s t r h hr
  cases i with
  | ldImm | addImm | ldReg | orReg | andReg | xorReg | ldVxDt =>
    cases h
    exact (State.readV_setV _ _ _ _).trans (if_neg (Ne.symm hr))
  | addReg | subReg | shr | subnReg | shl =>
    cases h
    obtain ⟨hx, hvf⟩ := not_or.mp hr
    rw [State.readV_setResultAndFlag, if_neg (Ne.symm hvf), if_neg (Ne.symm hx)]
  | rnd x nn =>
    cases h
    rw [State.readV_setV, if_neg (Ne.symm hr), State.readV_eq_of_v_eq s.afterDraw_v]
  | drw x y n =>
    cases h
    rw [State.readV_setV, if_neg (Ne.symm hr), State.readV_eq_of_v_eq (s.setFb_v _)]
  | addI x =>
    cases h
    cases hp : s.params.fx1eSetsVF with
    | false => rfl
    | true =>
      have hvf : r ≠ vf := fun e => hr ⟨hp, e⟩
      exact (State.readV_setV _ _ _ _).trans (if_neg hvf.symm)
  | loadRegs x =>
    cases h
    have hx : ¬ r.toNat < x.toNat + 1 := fun hlt => hr (Nat.le_of_lt_succ hlt)
    rw [State.readV_loadFirst s (by omega), if_neg hx]
  | ldVxKey x =>
    obtain ⟨-, rfl⟩ | ⟨k, -, rfl⟩ := exec_ldVxKey_cases h
    · rfl
    · rw [State.readV_setV, if_neg (Ne.symm hr)]
  | cls | ret | jp | call | seImm | sneImm | seReg | sneReg | ldI | jpV0 | skp | sknp | ldDtVx | ldStVx | ldFont | ldBcd
    | storeRegs => exact instructionWritesOnlyItsPieces _ s t h .v (by simp [piecesWritten]) r

/-- Settles O18: ST set beforehand goes through every instruction but FX18, which overwrites it. -/
theorem soundTimerIsNeverRead : Obligations.SoundTimerIsNeverRead := by
  refine fun i s t b h => ⟨fun hi => exec_setSt b hi h, ?_⟩
  rintro x rfl
  exact h

end Sys2Proof.Machine
end

section
/-! Proofs, family 41 continued (arithmetic): logic, shifts, and the random byte. -/

namespace Sys2Proof.Machine

/-! ### Byte arithmetic as arithmetic on numbers -/

theorem byte_shiftRight_one_eq (a : Byte) : a >>> 1 = BitVec.ofNat 8 (a.toNat / 2) := by
  apply BitVec.eq_of_toNat_eq
  rw [BitVec.toNat_ushiftRight, Nat.shiftRight_one, BitVec.toNat_ofNat]
  have h := a.isLt
  omega

theorem byte_shiftLeft_one_eq (a : Byte) : a <<< 1 = BitVec.ofNat 8 (2 * a.toNat % 256) := by
  apply BitVec.eq_of_toNat_eq
  rw [BitVec.toNat_shiftLeft, Nat.shiftLeft_eq, BitVec.toNat_ofNat]
  omega

/-- Bit 0 is the parity. -/
theorem shiftedOutRight_eq (a : Byte) : shiftedOutRight a = BitVec.ofNat 8 (a.toNat % 2) := by
  rcases Nat.mod_two_eq_zero_or_one a.toNat with h | h <;>
    simp [shiftedOutRight, flagByte, BitVec.getLsbD, Nat.testBit_zero, h]

/-- Bit 7 is the most significant one. -/
theorem shiftedOutLeft_eq (a : Byte) : shiftedOutLeft a = BitVec.ofNat 8 (a.toNat / 128) := by
  have hbit : a.getLsbD 7 = decide (128 ≤ a.toNat) := BitVec.msb_eq_decide a
  have hlt := a.isLt
  rw [shiftedOutLeft, hbit, flagByte]
  split
  · next h =>
    have h1 : a.toNat / 128 = 1 := by
      rw [decide_eq_true_eq] at h
      omega
    rw [h1]
  · next h =>
    have h0 : a.toNat / 128 = 0 := by
      rw [decide_eq_true_eq] at h
      omega
    rw [h0]

/-! ### The meanings -/

theorem exec_orReg (x y : Reg) (s : State) : exec (.orReg x y) s = .next (s.setV x (s.readV x ||| s.readV y)) := rfl

theorem exec_andReg (x y : Reg) (s : State) : exec (.andReg x y) s = .next (s.setV x (s.readV x &&& s.readV y)) := rfl

theorem exec_xorReg (x y : Reg) (s : State) : exec (.xorReg x y) s = .next (s.setV x (s.readV x ^^^ s.readV y)) := rfl

theorem exec_subnReg (x y : Reg) (s : State) : exec (.subnReg x y) s =
    .next (s.setResultAndFlag x (s.readV y - s.readV x) (noBorrowFlag (s.readV y) (s.readV x))) := rfl

theorem exec_shr (x y : Reg) (s : State) : exec (.shr x y) s =
    .next (s.setResultAndFlag x (s.readV x >>> 1) (shiftedOutRight (s.readV x))) := rfl

theorem exec_shl (x y : Reg) (s : State) : exec (.shl x y) s =
    .next (s.setResultAndFlag x (s.readV x <<< 1) (shiftedOutLeft (s.readV x))) := rfl

theorem exec_rnd (x : Reg) (nn : Byte) (s : State) : exec (.rnd x nn) s = .next (s.afterDraw.setV x (s.drawnByte &&& nn)) := rfl

/-! ### The register written, bit by bit; the random byte -/

theorem SetsRegister.bitwise {o : Outcome} {s : State} {x : Reg} {b : Byte} {bit : Nat → Bool} (h : SetsRegister o s x b)
    (hb : ∀ k, b.getLsbD k = bit k) :
    Completes o fun t =>
      (∀ k, (t.readV x).getLsbD k = bit k) ∧ (∀ r, r ≠ x → t.readV r = s.readV r) ∧ OnlyChanges [.v] s t := by
  obtain ⟨t, ht, hx, hother, hframe⟩ := h
  exact ⟨t, ht, fun k => hx ▸ hb k, hother, hframe⟩

/-- CXNN, whatever byte answers the draw. -/
theorem exec_rnd_completes (x : Reg) (nn : Byte) (s : State) :
    Completes (exec (.rnd x nn) s) fun t => t.readV x = s.drawnByte &&& nn ∧ t.supplied = s.supplied.tail ∧
      t.draws = s.draws + 1 ∧ (∀ r, r ≠ x → t.readV r = s.readV r) ∧ OnlyChanges [.v, .provider] s t := by
  refine ⟨_, exec_rnd x nn s, by simp, rfl, rfl, fun r hr => ?_, ?_⟩
  · rw [State.readV_setV, if_neg hr.symm, State.readV_eq_of_v_eq s.afterDraw_v]
  · exact ((onlyChanges_afterDraw s).trans (onlyChanges_with_v _ _)).mono (by simp)

/-! ### The obligations -/

/-- Settles O20: each of the three instructions is one write of VX, of the bitwise result. -/
theorem logicResults : Obligations.LogicResults := by
  intro s x y
  refine ⟨encodedAs_of_encode_eq_encodeXYN rfl rfl, encodedAs_of_encode_eq_encodeXYN rfl rfl,
    encodedAs_of_encode_eq_encodeXYN rfl rfl, ?_, ?_, ?_⟩
  · rw [exec_orReg]
    exact (setsRegister_setV s x _).bitwise fun _ => BitVec.getLsbD_or
  · rw [exec_andReg]
    exact (setsRegister_setV s x _).bitwise fun _ => BitVec.getLsbD_and
  · rw [exec_xorReg]
    exact (setsRegister_setV s x _).bitwise fun _ => BitVec.getLsbD_xor

/-- Settles O23: each of the three instructions writes its result and then the flag of the old values. -/
theorem reverseSubtractAndShiftResults : Obligations.ReverseSubtractAndShiftResults := by
  intro s x y
  refine ⟨encodedAs_of_encode_eq_encodeXYN rfl rfl, encodedAs_of_encode_eq_encodeXYN rfl rfl,
    encodedAs_of_encode_eq_encodeXYN rfl rfl, ?_, ?_, ?_⟩
  · rw [exec_subnReg, ← byte_sub_eq, ← noBorrowFlag_eq]
    exact setsRegisterAndFlag_setResultAndFlag s x _ _
  · rw [exec_shr, ← byte_shiftRight_one_eq, ← shiftedOutRight_eq]
    exact setsRegisterAndFlag_setResultAndFlag s x _ _
  · rw [exec_shl, ← byte_shiftLeft_one_eq, ← shiftedOutLeft_eq]
    exact setsRegisterAndFlag_setResultAndFlag s x _ _

/-- Settles O24: the drawn byte is the next supplied one, or the free value of this draw when none is. -/
theorem randomResult : Obligations.RandomResult := by
  intro s x nn
  refine ⟨encodedAs_of_encode_eq_encodeXNN rfl rfl, fun b rest hsup => ?_, fun hsup => ?_⟩
  · simpa [State.drawnByte, hsup] using exec_rnd_completes x nn s
  · simpa [State.drawnByte, hsup] using exec_rnd_completes x nn s

end Sys2Proof.Machine
end

section
/-! Proofs, family 42 continued (control flow): the sum of BNNN, the skips, and the call stack. -/

namespace Sys2Proof.Machine

/-! ### The sum of BNNN -/

/-- Zero extension keeps the number (00_scope.md section 5). -/
@[simp] theorem toNat_zextByte (b : Byte) : (zextByte b).toNat = b.toNat :=
  BitVec.toNat_setWidth_of_le (by decide)

/-- An address and a byte are too small for their sum to wrap at 16 bits. -/
theorem toNat_zextAddr_add_zextByte (nnn : Addr) (b : Byte) : (zextAddr nnn + zextByte b).toNat = nnn.toNat + b.toNat := by
  rw [BitVec.toNat_add, toNat_zextAddr, toNat_zextByte]
  have hn := nnn.isLt
  have hb := b.isLt
  omega

theorem exec_jpV0 (nnn : Addr) (s : State) :
    exec (.jpV0 nnn) s = .next (s.setPc (zextAddr nnn + zextByte (s.readV 0x0#4))) := rfl

/-! ### The skips -/

theorem skipsWhen_skipIf (s : State) {c : Bool} {P : Prop} (h : c = true ↔ P) : SkipsWhen (.next (s.skipIf c)) s P := by
  refine ⟨_, rfl, fun hP => ?_, fun hP => ?_, onlyChanges_skipIf s c⟩
  · rw [State.skipIf_pc, if_pos (h.mpr hP)]
  · rw [State.skipIf_pc, if_neg (mt h.mp hP)]

theorem exec_seImm (x : Reg) (nn : Byte) (s : State) : exec (.seImm x nn) s = .next (s.skipIf (s.readV x == nn)) := rfl

theorem exec_sneImm (x : Reg) (nn : Byte) (s : State) : exec (.sneImm x nn) s = .next (s.skipIf (s.readV x != nn)) := rfl

theorem exec_seReg (x y : Reg) (s : State) : exec (.seReg x y) s = .next (s.skipIf (s.readV x == s.readV y)) := rfl

theorem exec_sneReg (x y : Reg) (s : State) : exec (.sneReg x y) s = .next (s.skipIf (s.readV x != s.readV y)) := rfl

theorem beq_iff_toNat_eq (a b : Byte) : (a == b) = true ↔ a.toNat = b.toNat :=
  beq_iff_eq.trans BitVec.toNat_inj.symm

theorem bne_iff_toNat_ne (a b : Byte) : (a != b) = true ↔ a.toNat ≠ b.toNat :=
  bne_iff_ne.trans BitVec.toNat_ne_iff_ne.symm

/-- In families 5 and 9 the low nibble must be 0 (conflict C5). -/
theorem decode_unknown_of_nField_ne {w : Word} (hop : opField w = 0x5#4 ∨ opField w = 0x9#4) (hn : nField w ≠ 0x0#4) :
    decode w = .unknown w := by
  rcases hop with hop | hop
  · simp [decode, hop, decodeFamily5, hn]
  · simp [decode, hop, decodeFamily9, hn]

/-! ### The obligations -/

/-- Settles O26: the jump is one write of PC, and the 16-bit sum does not wrap. -/
theorem jumpPlusV0Result : Obligations.JumpPlusV0Result := by
  intro s nnn
  refine ⟨encodedAs_of_encode_eq_encodeNNN rfl rfl, _, exec_jpV0 nnn s, ?_, onlyChanges_setPc s _⟩
  rw [State.setPc_pc, toNat_zextAddr_add_zextByte]

/-- Settles O27: below 16 entries the call is a push and a jump, otherwise the condition is taken. -/
theorem callResult : Obligations.CallResult := by
  intro s nnn
  have henc : EncodedAs (.call nnn) (0x2000 + nnn.toNat) := encodedAs_of_encode_eq_encodeNNN rfl rfl
  refine ⟨henc, fun hsp => ?_, fun hsp => ?_⟩
  · refine ⟨_, exec_call_push nnn hsp, toNat_zextAddr nnn, ?_, ?_, fun k hk => ?_, ?_⟩
    · rw [State.setPc_sp, State.push_sp]
      bv_omega
    · simp [hsp]
    · simp [hk.symm]
    · exact ((onlyChanges_push s _).trans (onlyChanges_setPc _ _)).mono (by simp)
  · refine ⟨_, exec_call_overflow nnn hsp, ?_, rfl, onlyChanges_rewind_with_fault s _⟩
    rw [← henc.1, BitVec.ofNat_toNat, BitVec.setWidth_eq]
    rfl

/-- Settles O28: the entry below SP is popped where SP is 1 to 16, an SP of 0 takes the condition, and above 16 there is no
entry. -/
theorem returnResult : Obligations.ReturnResult := by
  intro s
  refine ⟨encodedAs_iff.mpr rfl, fun w hsp hw => ?_, fun hsp => ?_, exec_ret_illegal⟩
  · refine ⟨_, exec_ret_pop (by omega) hw, rfl, ?_, (onlyChanges_drop s).trans (onlyChanges_setPc _ _) |>.mono (by simp)⟩
    rw [State.setPc_sp, State.drop_sp]
    bv_omega
  · exact ⟨_, exec_ret_underflow hsp, rfl, rfl, onlyChanges_rewind_with_fault s _⟩

/-- Settles O29: each skip is the shared one on its comparison. -/
theorem registerSkipResults : Obligations.RegisterSkipResults := by
  intro s x y nn
  refine ⟨encodedAs_of_encode_eq_encodeXNN rfl rfl, encodedAs_of_encode_eq_encodeXNN rfl rfl,
    encodedAs_of_encode_eq_encodeXYN rfl rfl, encodedAs_of_encode_eq_encodeXYN rfl rfl,
    fun w => decode_unknown_of_nField_ne, ?_, ?_, ?_, ?_⟩
  · rw [exec_seImm]
    exact skipsWhen_skipIf s (beq_iff_toNat_eq _ _)
  · rw [exec_sneImm]
    exact skipsWhen_skipIf s (bne_iff_toNat_ne _ _)
  · rw [exec_seReg]
    exact skipsWhen_skipIf s (beq_iff_toNat_eq _ _)
  · rw [exec_sneReg]
    exact skipsWhen_skipIf s (bne_iff_toNat_ne _ _)

/-- Settles O30: what the call pushed is on top of the stack, and dropping it takes back the raise of SP. -/
theorem returnUndoesCall : Obligations.ReturnUndoesCall := by
  intro s t u nnn hsp hcall husp hustack
  rw [exec_call_push nnn hsp] at hcall
  cases hcall
  have hsp' : u.sp = s.sp + 1#8 := husp
  have h0 : u.sp.toNat ≠ 0 := by
    rw [hsp']
    bv_omega
  have htop : u.top = some s.pc := by
    rw [← State.top_push s.pc hsp, State.top, husp, hustack]
    rfl
  refine ⟨_, exec_ret_pop h0 htop, rfl, ?_, (onlyChanges_drop u).trans (onlyChanges_setPc _ _) |>.mono (by simp)⟩
  rw [State.setPc_sp, State.drop_sp, hsp']
  bv_omega

end Sys2Proof.Machine
end

section
/-! Proofs, family 43 continued (index register and memory): addresses, stored and loaded bytes, and the fetch that reads them. -/

namespace Sys2Proof.Machine

/-! ### Addresses -/

theorem toNat_ea (i : Word) (k : Nat) : (ea i k).toNat = (i.toNat + k) % 4096 := by
  simp only [ea, mask12, BitVec.toNat_setWidth, BitVec.toNat_add, BitVec.toNat_ofNat]
  omega

theorem ea_zero_ne_ea_one (i : Word) : ea i 0 ≠ ea i 1 :=
  fun e => absurd (ea_injective (by decide) (by decide) e) (by decide)

/-- The address after an address that two registers share is shared too. -/
theorem ea_succ_eq {i j : Word} {k l : Nat} (h : ea i k = ea j l) : ea i (k + 1) = ea j (l + 1) := by
  have h' := congrArg BitVec.toNat h
  rw [toNat_ea, toNat_ea] at h'
  apply BitVec.eq_of_toNat_eq
  rw [toNat_ea, toNat_ea]
  omega

theorem toNat_glyphAddress (p : Params) (b : Byte) :
    (glyphAddress p b).toNat = p.fontBase.val + 5 * (b.toNat % 16) := by
  have hp := p.fontBase.isLt
  simp only [glyphAddress, fontGlyphBytes, lowNibble, BitVec.toNat_setWidth, BitVec.toNat_ofNat]
  omega

/-- FX1E's new index. -/
theorem toNat_zextAddr_mask12_add (i : Word) (b : Byte) :
    (zextAddr (mask12 (i + zextByte b))).toNat = (i.toNat + b.toNat) % 4096 := by
  rw [toNat_zextAddr, mask12, BitVec.toNat_setWidth, BitVec.toNat_add, toNat_zextByte]
  omega

theorem indexOverflowFlag_eq (i : Word) (b : Byte) :
    indexOverflowFlag i b = if 0xFFF < i.toNat + b.toNat then 1#8 else 0#8 := by
  simp [indexOverflowFlag, flagByte]

/-! ### The decimal digits -/

theorem toNat_hundredsDigit (b : Byte) : (hundredsDigit b).toNat = b.toNat / 100 := by
  rw [hundredsDigit, BitVec.toNat_ofNat]
  omega

theorem toNat_tensDigit (b : Byte) : (tensDigit b).toNat = b.toNat / 10 % 10 := by
  rw [tensDigit, BitVec.toNat_ofNat]
  omega

theorem toNat_onesDigit (b : Byte) : (onesDigit b).toNat = b.toNat % 10 := by
  rw [onesDigit, BitVec.toNat_ofNat]
  omega

/-! ### The meanings -/

theorem exec_addI (x : Reg) (s : State) : exec (.addI x) s = .next (s.addIndex s.params.fx1eSetsVF x) := rfl

theorem exec_ldFont (x : Reg) (s : State) : exec (.ldFont x) s = .next (s.setI (glyphAddress s.params (s.readV x))) := rfl

theorem exec_ldBcd (x : Reg) (s : State) : exec (.ldBcd x) s =
    .next (((s.memWrite (ea s.i 0) (hundredsDigit (s.readV x))).memWrite (ea s.i 1) (tensDigit (s.readV x))).memWrite
      (ea s.i 2) (onesDigit (s.readV x))) := rfl

theorem exec_storeRegs (x : Reg) (s : State) : exec (.storeRegs x) s = .next (s.storeFirst (x.toNat + 1)) := rfl

theorem exec_loadRegs (x : Reg) (s : State) : exec (.loadRegs x) s = .next (s.loadFirst (x.toNat + 1)) := rfl

/-! ### Stored registers -/

/-- The byte that FX55 stores for a register of its range. -/
theorem memRead_storeFirst_reg {s : State} (hs : s.mem.wf s.params = true) {x k : Reg} (hk : k.toNat ≤ x.toNat) :
    (s.storeFirst (x.toNat + 1)).memRead (ea s.i k.toNat) = s.readV k := by
  rw [State.memRead_storeFirst hs (by omega) (by omega), BitVec.ofNat_toNat, BitVec.setWidth_eq]

/-! ### The obligations -/

/-- Settles O37: the sum modulo 2^16 and then modulo 2^12 is the sum modulo 2^12. -/
theorem effectiveAddressWraps : Obligations.EffectiveAddressWraps := toNat_ea

/-- Settles O5: the two bytes are read at the effective addresses PC and PC + 1. -/
theorem fetchIsBigEndian : Obligations.FetchIsBigEndian := by
  intro s
  rw [State.fetchWord, toNat_wordOfBytes]
  simp only [State.memRead, Memory.read, toNat_ea, Nat.add_zero]

/-- Settles O32: the load is one write of I, and the glyph address does not wrap at 16 bits. -/
theorem glyphAddressResult : Obligations.GlyphAddressResult := by
  intro s x
  refine ⟨encodedAs_of_encode_eq_encodeXNN_fixed rfl rfl, _, exec_ldFont x s, ?_, onlyChanges_setI s _⟩
  rw [State.setI_i, toNat_glyphAddress]

/-- Settles O33: I is written, and VF after it where the parameter says so. -/
theorem addIndexResult : Obligations.AddIndexResult := by
  intro s x
  refine ⟨encodedAs_of_encode_eq_encodeXNN_fixed rfl rfl, fun hp => ?_, fun hp => ?_⟩
  · rw [exec_addI, hp]
    exact ⟨_, rfl, toNat_zextAddr_mask12_add _ _, onlyChanges_addIndex s false x⟩
  · rw [exec_addI, hp, ← indexOverflowFlag_eq]
    refine ⟨_, rfl, toNat_zextAddr_mask12_add _ _, ?_, fun r hr => ?_, onlyChanges_addIndex s true x⟩
    · exact (State.readV_setV _ _ _ _).trans (if_pos rfl)
    · exact (State.readV_setV _ _ _ _).trans (if_neg hr.symm)

/-- Settles O34: the three addresses differ, so each digit is read back and no other address is touched. -/
theorem decimalDigitsStored : Obligations.DecimalDigitsStored := by
  refine ⟨fun x => encodedAs_of_encode_eq_encodeXNN_fixed rfl rfl, fun s x hs => ⟨_, exec_ldBcd x s, ?_, ?_, ?_, ?_, ?_⟩⟩
  all_goals
    have h01 : ea s.i 0 ≠ ea s.i 1 := ea_zero_ne_ea_one s.i
    have h02 : ea s.i 0 ≠ ea s.i 2 := fun e => absurd (ea_injective (by decide) (by decide) e) (by decide)
    have h12 : ea s.i 1 ≠ ea s.i 2 := fun e => absurd (ea_injective (by decide) (by decide) e) (by decide)
  · rw [State.memRead_memWrite_other _ _ h02, State.memRead_memWrite_other _ _ h01, State.memRead_memWrite_same hs,
      toNat_hundredsDigit]
  · rw [State.memRead_memWrite_other _ _ h12, State.memRead_memWrite_same (State.memWrite_wf hs _ _), toNat_tensDigit]
  · rw [State.memRead_memWrite_same (State.memWrite_wf (State.memWrite_wf hs _ _) _ _), toNat_onesDigit]
  · intro a h0 h1 h2
    rw [State.memRead_memWrite_other _ _ h2, State.memRead_memWrite_other _ _ h1, State.memRead_memWrite_other _ _ h0]
  · exact instructionWritesOnlyItsPieces _ s _ (exec_ldBcd x s)

/-- Settles O35: the block store writes the registers of its range and no other address. -/
theorem registersStored : Obligations.RegistersStored := by
  refine ⟨fun x => encodedAs_of_encode_eq_encodeXNN_fixed rfl rfl, fun s x hs => ⟨_, exec_storeRegs x s, ?_, ?_, ?_⟩⟩
  · exact fun k hk => memRead_storeFirst_reg hs hk
  · refine fun a ha => State.memRead_storeFirst_other s fun k hk => ?_
    have hk16 : (BitVec.ofNat 4 k).toNat = k := by
      rw [BitVec.toNat_ofNat]
      omega
    exact hk16 ▸ ha (BitVec.ofNat 4 k) (by omega)
  · exact onlyChanges_storeFirst s _

/-- Settles O36: the block load writes the registers of its range from memory and no other register. -/
theorem registersLoaded : Obligations.RegistersLoaded := by
  intro s x
  refine ⟨encodedAs_of_encode_eq_encodeXNN_fixed rfl rfl, _, exec_loadRegs x s, fun k hk => ?_, fun k hk => ?_,
    onlyChanges_loadFirst s _⟩
  · rw [State.readV_loadFirst s (by omega), if_pos (by omega)]
  · rw [State.readV_loadFirst s (by omega), if_neg (by omega)]

/-- Settles O38: the load reads the bytes at the addresses at which the store left the registers. -/
theorem storeThenLoadRestoresRegisters : Obligations.StoreThenLoadRestoresRegisters := by
  intro s t u x hs hstore hmem hi
  cases (exec_storeRegs x s).symm.trans hstore
  refine ⟨_, exec_loadRegs x u, fun k hk => ?_⟩
  rw [State.readV_loadFirst u (by omega), if_pos (by omega), hmem, hi, memRead_storeFirst_reg hs hk]

/-- Settles O39: the byte after a shared address is shared too, so the fetch reads both stored registers. -/
theorem storedCodeIsFetchedNext : Obligations.StoredCodeIsFetchedNext := by
  intro s t x k hs hkx hpc hstore
  cases (exec_storeRegs x s).symm.trans hstore
  have hk1 : (k + 1#4).toNat = k.toNat + 1 := by bv_omega
  rw [State.fetchWord, State.storeFirst_pc, hpc, ea_succ_eq hpc, ← hk1, memRead_storeFirst_reg hs (by omega),
    memRead_storeFirst_reg hs (by omega), wordOfBytes]

end Sys2Proof.Machine
end

section
/-! Proofs, family 44 continued (graphics): the drawn sprite, and the snapshot. -/

namespace Sys2Proof.Machine

/-! ### The display -/

/-- Displays with the same pixels are equal data. -/
theorem Display.ext_pixel {f g : Display} (h : ∀ y x, f.pixel y x = g.pixel y x) : f = g := by
  apply Vector.ext
  intro y hy
  apply BitVec.eq_of_getLsbD_eq
  intro x hx
  exact h ⟨y, hy⟩ ⟨x, hx⟩

/-- The coverage of a sprite depends on memory and I alone. -/
theorem State.spriteCovers_congr {s t : State} (hmem : ∀ a, t.memRead a = s.memRead a) (hi : t.i = s.i) {x0 y0 : Byte}
    {n : Nat} {row : Fin 32} {col : Fin 64} :
    t.SpriteCovers x0 y0 n row col ↔ s.SpriteCovers x0 y0 n row col := by
  simp only [State.SpriteCovers, hmem, hi]

theorem exec_drw (x y : Reg) (n : Nibble) (s : State) : exec (.drw x y n) s =
    .next ((s.setFb (s.drawRows (s.readV x) (s.readV y) n.toNat).fb).setV vf
      (collisionFlag (s.drawRows (s.readV x) (s.readV y) n.toNat).hit)) := rfl

theorem collisionFlag_eq_one_iff (hit : Bool) : collisionFlag hit = 1#8 ↔ hit = true := by
  cases hit <;> decide

theorem collisionFlag_eq_zero_iff (hit : Bool) : collisionFlag hit = 0#8 ↔ hit = false := by
  cases hit <;> decide

/-! What a draw that answers the next state `t` has done. -/

section
variable {s t : State} {x y : Reg} {n : Nibble}

theorem pixel_of_exec_drw (h : exec (.drw x y n) s = .next t) (row : Fin 32) (col : Fin 64) :
    t.pixel row col ≠ s.pixel row col ↔ s.SpriteCovers (s.readV x) (s.readV y) n.toNat row col := by
  cases (exec_drw x y n s).symm.trans h
  exact State.pixel_drawRows s _ _ (by omega) row col

theorem vf_of_exec_drw (h : exec (.drw x y n) s = .next t) : t.readV vf = 1#8 ↔
    ∃ row col, s.SpriteCovers (s.readV x) (s.readV y) n.toNat row col ∧ s.pixel row col = true := by
  cases (exec_drw x y n s).symm.trans h
  rw [State.readV_setV, if_pos rfl, collisionFlag_eq_one_iff, State.hit_drawRows s _ _ (by omega)]

theorem vf_eq_zero_or_one_of_exec_drw (h : exec (.drw x y n) s = .next t) : t.readV vf = 0#8 ∨ t.readV vf = 1#8 := by
  cases (exec_drw x y n s).symm.trans h
  rw [State.readV_setV, if_pos rfl, collisionFlag_eq_one_iff, collisionFlag_eq_zero_iff]
  exact Bool.eq_false_or_eq_true _ |>.symm

end

/-! ### The obligations -/

/-- Settles O41: exactly the covered pixels differ, and a pixel that differs is inverted. -/
theorem drawInvertsCoveredPixels : Obligations.DrawInvertsCoveredPixels := by
  intro s x y n
  have henc : EncodedAs (.drw x y n) (0xD000 + 0x100 * x.toNat + 0x10 * y.toNat + n.toNat) :=
    encodedAs_iff.mpr (by rw [encode, toNat_encodeXYN]; rfl)
  obtain ⟨t, ht⟩ : ∃ t, exec (.drw x y n) s = .next t := ⟨_, exec_drw x y n s⟩
  refine ⟨henc, t, ht, fun row col hc => ?_, fun row col hc => ?_, (vf_of_exec_drw ht).mpr, fun hoff => ?_,
    fun r hr => instructionWritesOnlyItsRegisters _ s t r ht hr, instructionWritesOnlyItsPieces _ s t ht⟩
  · exact Bool.eq_not.mpr ((pixel_of_exec_drw ht row col).mpr hc)
  · exact not_not.mp (mt (pixel_of_exec_drw ht row col).mp hc)
  · refine (vf_eq_zero_or_one_of_exec_drw ht).resolve_right fun h1 => ?_
    obtain ⟨row, col, hc, hon⟩ := (vf_of_exec_drw ht).mp h1
    exact Bool.false_ne_true ((hoff row col hc).symm.trans hon)

/-- Settles O42: both draws invert the same pixels, so the second one meets a pixel on exactly where the first one met it off. -/
theorem drawTwiceRestoresDisplay : Obligations.DrawTwiceRestoresDisplay := by
  intro s t u x y n hx hy ht hu
  have hframe := instructionWritesOnlyItsPieces _ s t ht
  have hreg := fun r hr => instructionWritesOnlyItsRegisters _ s t r ht hr
  have hcov : ∀ row col, t.SpriteCovers (t.readV x) (t.readV y) n.toNat row col ↔
      s.SpriteCovers (s.readV x) (s.readV y) n.toNat row col := fun row col => by
    rw [hreg x hx, hreg y hy]
    exact State.spriteCovers_congr (hframe .mem (by simp [piecesWritten])) (hframe .i (by simp [piecesWritten]))
  have hfirst := pixel_of_exec_drw ht
  have hsecond := fun row col => (pixel_of_exec_drw hu row col).trans (hcov row col)
  refine ⟨Display.ext_pixel fun row col => ?_, ?_⟩
  · change u.pixel row col = s.pixel row col
    by_cases hc : s.SpriteCovers (s.readV x) (s.readV y) n.toNat row col
    · rw [Bool.eq_not.mpr ((hsecond row col).mpr hc), Bool.eq_not.mpr ((hfirst row col).mpr hc), Bool.not_not]
    · rw [not_not.mp (mt (hsecond row col).mp hc), not_not.mp (mt (hfirst row col).mp hc)]
  · rw [vf_of_exec_drw hu]
    refine exists_congr fun row => exists_congr fun col => ?_
    rw [hcov]
    refine and_congr_right fun hc => ?_
    rw [Bool.eq_not.mpr ((hfirst row col).mpr hc), Bool.not_eq_true']

/-- The snapshot's element for a pixel. -/
theorem State.displaySnapshot_getElem? (s : State) (y : Fin 32) (x : Fin 64) :
    s.displaySnapshot[64 * y.val + x.val]? = some (s.pixel y x) := by
  have hlt : 64 * y.val + x.val < 2048 := by omega
  have hy : Fin.ofNat 32 ((64 * y.val + x.val) / 64) = y := Fin.ext (by simp [Fin.ofNat]; omega)
  have hx : Fin.ofNat 64 ((64 * y.val + x.val) % 64) = x := Fin.ext (by simp [Fin.ofNat])
  rw [State.displaySnapshot, Vector.getElem?_eq_getElem hlt, Vector.getElem_ofFn, hy, hx]

/-- Settles O52: the element number is taken apart into row and column again. -/
theorem snapshotShowsDisplay : Obligations.SnapshotShowsDisplay := by
  refine fun s => ⟨s.displaySnapshot_getElem?, rfl, _, exec_cls s, fun k => ?_⟩
  simp [State.displaySnapshot]

end Sys2Proof.Machine
end

section
/-! Proofs, families 45 and 46 continued (timers, input): ticks in a row, the selected key, and the wait for a key. -/

namespace Sys2Proof.Machine

/-! ### Ticks in a row -/

theorem applyEvents_cons (e : Event) (es : List Event) (s : State) :
    applyEvents (e :: es) s = applyEvents es (applyEvent e s).1 := rfl

theorem applyEvent_tickTimers (s : State) : (applyEvent .tickTimers s).1 = s.tickTimers := rfl

/-! ### The selected key and the skips on it -/

theorem keyNumber_eq_of_toNat {b : Byte} {k : Key} (h : k.toNat = b.toNat % 16) : keyNumber b = k := by
  apply BitVec.eq_of_toNat_eq
  rw [keyNumber, lowNibble, BitVec.toNat_setWidth, h]

theorem exec_skp (x : Reg) (s : State) : exec (.skp x) s = .next (s.skipIf (s.keyDown (keyNumber (s.readV x)))) := rfl

theorem exec_sknp (x : Reg) (s : State) : exec (.sknp x) s = .next (s.skipIf (!s.keyDown (keyNumber (s.readV x)))) := rfl

/-! ### The key edge -/

theorem State.keyEdge_eq_true_iff {s : State} {k : Key} :
    s.keyEdge k = true ↔ s.keyWasDown k = false ∧ s.keyDown k = true := by
  simp [State.keyEdge]

theorem State.keyEdge_eq_false_iff {s : State} {k : Key} :
    s.keyEdge k = false ↔ ¬ (s.keyWasDown k = false ∧ s.keyDown k = true) := by
  rw [← State.keyEdge_eq_true_iff, Bool.not_eq_true]

/-! ### The obligations -/

/-- Settles O45, by induction on the number of ticks: each is one countdown of either timer. -/
theorem ticksCountDownToZero : Obligations.TicksCountDownToZero := by
  intro s k
  induction k generalizing s with
  | zero => exact ⟨rfl, rfl⟩
  | succ k ih =>
    obtain ⟨hdt, hst⟩ := ih s.tickTimers
    rw [List.replicate_succ, applyEvents_cons, applyEvent_tickTimers, hdt, hst, State.tickTimers_dt, State.tickTimers_st,
      toNat_countDown, toNat_countDown]
    omega

/-- Settles O46: each skip is the shared one on the level of the key that VX's low nibble numbers. -/
theorem keySkipResults : Obligations.KeySkipResults := by
  refine ⟨fun x => ⟨encodedAs_of_encode_eq_encodeXNN_fixed rfl rfl, encodedAs_of_encode_eq_encodeXNN_fixed rfl rfl⟩,
    fun s x k hk => ?_⟩
  rw [exec_skp, exec_sknp, keyNumber_eq_of_toNat hk]
  exact ⟨skipsWhen_skipIf s Iff.rfl, skipsWhen_skipIf s (Bool.not_eq_true' _ ▸ Iff.rfl)⟩

/-- Settles O47: the lowest key with an edge is the one found, and it is one write of VX. -/
theorem waitForKeyCompletesOnEdge : Obligations.WaitForKeyCompletesOnEdge := by
  refine ⟨fun x => encodedAs_of_encode_eq_encodeXNN_fixed rfl rfl, fun s x j hup hdown hlow => ?_⟩
  have hfirst : s.firstEdge = some j.toNat :=
    State.firstEdge_eq_some (State.keyEdge_eq_true_iff.mpr ⟨hup, hdown⟩) fun k hk =>
      State.keyEdge_eq_false_iff.mpr (hlow k hk)
  rw [exec_ldVxKey_edge x hfirst]
  exact setsRegister_setV s x _

end Sys2Proof.Machine
end

section
/-! Proofs, family 40 (the cycle): what the step does in each of its cases, the fetched word, and the program counter after it. -/

namespace Sys2Proof.Machine

/-! ### The cases of the step -/

theorem step_of_latched {s : State} {r : FaultRecord} (h : s.fault = some r) : step s = .fault (.latched r) := by
  simp [step, State.frontEnd, h]

theorem step_of_pcOutOfRange {s : State} (hf : s.fault = none) (hpc : 0x0FFF < s.pc.toNat) :
    step s = .next { s with fault := some (.pcOutOfRange s.pc) } := by
  simp [step, State.frontEnd, hf, hpc, takeFault]

theorem step_of_unknown {s : State} {w : Word} (hf : s.fault = none) (hpc : s.pc.toNat ≤ 0x0FFF)
    (hd : decode s.fetchWord = .unknown w) : step s = .next { s with fault := some (.unknownOpcode w s.pc) } := by
  simp [step, State.frontEnd, hf, Nat.not_lt.mpr hpc, hd, takeFault]

theorem commit_of_completed (s : State) {t : State} (h : t.fault = none) :
    commit s (.next t) = .next { t with prevKeys := s.keys } := by
  simp [commit, h]

theorem commit_of_faulted (s : State) {t : State} {r : FaultRecord} (h : t.fault = some r) : commit s (.next t) = .next t := by
  simp [commit, h]

/-- An instruction that was fetched and took a fatal condition has left the state before the cycle with the record latched. -/
theorem exec_advance_faulted {i : Instr} {s u : State} (hf : s.fault = none) (h : exec i s.advance = .next u)
    (hu : u.fault ≠ none) :
    (∃ nnn, i = .call nnn ∧ 16 ≤ s.sp.toNat ∧ u = { s with fault := some (.stackOverflow (encode i) s.pc) }) ∨
    (i = .ret ∧ s.sp.toNat = 0 ∧ u = { s with fault := some (.stackUnderflow (encode i) s.pc) }) := by
  obtain hkept | ⟨nnn, rfl, hsp, rfl⟩ | ⟨rfl, hsp, rfl⟩ := exec_fault_cases h
  · exact absurd (hkept.trans hf) hu
  · exact .inl ⟨nnn, rfl, hsp, by rw [State.rewind_advance]⟩
  · exact .inr ⟨rfl, hsp, by rw [State.rewind_advance]⟩

/-- Everything a step that answers a next state can do: it leaves the state before with a record latched, or it completes an
instruction and records the key sample. -/
theorem step_cases_precise {s t : State} (h : step s = .next t) : s.fault = none ∧
    ((∃ r, t = { s with fault := some r }) ∨
     (s.pc.toNat ≤ 0x0FFF ∧ ∃ i u, decode s.fetchWord = .instr i ∧ exec i s.advance = .next u ∧ u.fault = none ∧
        t = { u with prevKeys := s.keys })) := by
  obtain ⟨hf, ⟨-, rfl⟩ | ⟨-, w, -, rfl⟩ | ⟨hpc, i, u, hd, he, ⟨hu, rfl⟩ | ⟨hu, rfl⟩⟩⟩ := step_cases h
  · exact ⟨hf, .inl ⟨_, rfl⟩⟩
  · exact ⟨hf, .inl ⟨_, rfl⟩⟩
  · exact ⟨hf, .inr ⟨hpc, i, u, hd, he, hu, rfl⟩⟩
  · obtain ⟨-, -, -, rfl⟩ | ⟨-, -, rfl⟩ := exec_advance_faulted hf he hu
    · exact ⟨hf, .inl ⟨_, rfl⟩⟩
    · exact ⟨hf, .inl ⟨_, rfl⟩⟩

/-! ### The placed word -/

theorem tableWord_sixteen (w : Word) : tableWord 16 w.toNat = w := by
  rw [tableWord, Nat.mod_eq_of_lt w.isLt, BitVec.ofNat_toNat, BitVec.setWidth_eq]

theorem State.fetchWord_placeWord {s : State} (hs : s.mem.wf s.params = true) (w : Word) : (s.placeWord w).fetchWord = w := by
  have h0 : (s.placeWord w).memRead (ea s.pc 0) = highByte w := by
    rw [State.placeWord, State.memRead_memWrite_other _ _ (ea_zero_ne_ea_one s.pc), State.memRead_memWrite_same hs]
  have h1 : (s.placeWord w).memRead (ea s.pc 1) = lowByte w :=
    State.memRead_memWrite_same (State.memWrite_wf hs _ _) _ _
  calc (s.placeWord w).fetchWord
    _ = wordOfBytes ((s.placeWord w).memRead (ea s.pc 0)) ((s.placeWord w).memRead (ea s.pc 1)) := rfl
    _ = w := by rw [h0, h1, wordOfBytes_high_low]

theorem State.readyToFetch_pc_le (s : State) : s.readyToFetch.pc.toNat ≤ 0x0FFF := by
  unfold State.readyToFetch
  dsimp only
  split
  · assumption
  · decide

theorem State.readyToFetch_eq {s : State} (hpc : s.pc.toNat ≤ 0x0FFF) : s.readyToFetch = { s with fault := none } := by
  simp [State.readyToFetch, hpc]

/-! ### The program counter after a cycle -/

theorem zextAddr_eq (nnn : Addr) : zextAddr nnn = BitVec.ofNat 16 nnn.toNat := by
  apply BitVec.eq_of_toNat_eq
  rw [toNat_zextAddr, BitVec.toNat_ofNat]
  omega

theorem zextAddr_add_zextByte_eq (nnn : Addr) (b : Byte) :
    zextAddr nnn + zextByte b = BitVec.ofNat 16 (nnn.toNat + b.toNat) := by
  rw [← toNat_zextAddr_add_zextByte, BitVec.ofNat_toNat, BitVec.setWidth_eq]

theorem keyNumber_eq (b : Byte) : keyNumber b = BitVec.ofNat 4 b.toNat :=
  keyNumber_eq_of_toNat (BitVec.toNat_ofNat _ _)

theorem State.skipIf_advance_pc (s : State) (c : Bool) : (s.advance.skipIf c).pc = skipTarget s.pc c := by
  cases c with
  | false => rfl
  | true =>
    change s.pc + 2#16 + 2#16 = s.pc + 4#16
    bv_omega

theorem State.keyEdge_advance (s : State) (k : Key) : s.advance.keyEdge k = s.keyEdge k := rfl

/-- FX0A waits exactly while no key has an edge. -/
theorem State.exists_edge_iff {s : State} :
    (∃ k : Key, s.keyWasDown k = false ∧ s.keyDown k = true) ↔ s.advance.firstEdge ≠ none := by
  rw [Ne, State.firstEdge_eq_none, not_forall]
  simp only [State.keyEdge_advance, State.keyEdge_eq_false_iff, not_not]

/-- PC after an instruction that was fetched and completed, by the table of 40_cycle.md R128. -/
theorem exec_advance_pc {i : Instr} {s u : State} (h : exec i s.advance = .next u)
    (hu : u.fault = none) : u.pc = pcAfterCycle s i := by
  cases i with
  | jp nnn => cases h; exact zextAddr_eq nnn
  | jpV0 nnn => cases h; exact zextAddr_add_zextByte_eq nnn _
  | seImm | seReg => cases h; exact s.skipIf_advance_pc _
  | sneImm | sneReg => cases h; exact (s.skipIf_advance_pc _).trans (congrArg _ decide_not.symm)
  | skp | sknp =>
    cases h
    refine (s.skipIf_advance_pc _).trans ?_
    rw [keyNumber_eq]
    rfl
  | call nnn =>
    obtain ⟨-, rfl⟩ | ⟨-, rfl⟩ := exec_call_cases h
    · cases hu
    · exact zextAddr_eq nnn
  | ret =>
    obtain ⟨-, rfl⟩ | ⟨-, w, htop, rfl⟩ := exec_ret_cases h
    · cases hu
    · have hw : s.stack[s.sp.toNat - 1]? = some w := htop
      simp [pcAfterCycle, hw]
  | ldVxKey x =>
    obtain ⟨hk, rfl⟩ | ⟨k, hk, rfl⟩ := exec_ldVxKey_cases h
    · simp [pcAfterCycle, State.exists_edge_iff, hk]
    · simp [pcAfterCycle, State.exists_edge_iff, hk]
  | addI x =>
    refine instructionWritesOnlyItsPieces _ _ u h .pc ?_
    rw [piecesWritten]
    split <;> simp
  | cls | ldImm | addImm | ldReg | orReg | andReg | xorReg | addReg | subReg | shr | subnReg | shl | ldI | rnd | drw | ldVxDt
    | ldDtVx | ldStVx | ldFont | ldBcd | storeRegs | loadRegs =>
    exact instructionWritesOnlyItsPieces _ _ u h .pc (by simp [piecesWritten])

/-! ### Pieces that no instruction writes -/

theorem not_mem_piecesWritten {p : Piece} (hp : p = .keys ∨ p = .prevKeys ∨ p = .params) (ps : Params) (i : Instr) :
    p ∉ piecesWritten ps i := by
  cases i with
  | addI x => rcases hp with rfl | rfl | rfl <;> rw [piecesWritten] <;> split <;> simp
  | _ => rcases hp with rfl | rfl | rfl <;> simp [piecesWritten]

/-! ### The obligations -/

/-- Settles O6: the step is the commit of the instruction's meaning, and the commit has one case for each outcome. -/
theorem stepExecutesDecodedInstruction : Obligations.StepExecutesDecodedInstruction := by
  intro s i hf hpc hd
  have hstep := step_eq_commit hf hpc hd
  refine ⟨rfl, fun t ht hu => ?_, fun t r ht hu => ?_, fun r hr => ?_⟩
  · rw [hstep, ht, commit_of_completed s hu]
  · rw [hstep, ht, commit_of_faulted s hu]
  · rw [hstep, hr, commit]

/-- Settles O7: the two bytes are written at the addresses that the fetch reads. -/
theorem placedWordIsFetched : Obligations.PlacedWordIsFetched := by
  intro s w hs
  rw [State.withFetchWord, tableWord_sixteen]
  refine ⟨State.fetchWord_placeWord (s := s.readyToFetch) hs w, rfl, s.readyToFetch_pc_le, fun hpc => ?_⟩
  rw [State.readyToFetch_eq hpc]
  refine ⟨?_, fun a h0 h1 => ?_⟩
  · exact ((onlyChanges_with_fault s none).trans ((onlyChanges_memWrite _ _ _).trans (onlyChanges_memWrite _ _ _))).mono
      (by simp)
  · exact (State.memRead_memWrite_other _ _ h1).trans (State.memRead_memWrite_other _ _ h0)

/-- Settles O8: the latch is looked at before anything else. -/
theorem latchedCycleReturnsSameRecord : Obligations.LatchedCycleReturnsSameRecord := by
  intro s r hf
  have hstep := step_of_latched hf
  exact ⟨hstep, by rw [runCycle, hstep]⟩

/-- Settles O9: the range check comes before the fetch. -/
theorem pcOutOfRangeIsTaken : Obligations.PcOutOfRangeIsTaken := fun _ hf hpc => step_of_pcOutOfRange hf hpc

/-- Settles O10: a word that selects no row does not decode. -/
theorem unknownOpcodeIsTaken : Obligations.UnknownOpcodeIsTaken := fun _ hf hpc hw =>
  step_of_unknown hf hpc (decode_eq_unknown_iff.mpr hw)

/-- Settles O11: the condition is taken in the state before the fetch, and the instruction's word is the fetched word. -/
theorem stackFaultsAreTaken : Obligations.StackFaultsAreTaken := by
  refine fun s hf hpc => ⟨fun nnn hd hsp => ?_, fun hd hsp => ?_⟩
  · rw [step_eq_commit hf hpc hd, exec_call_overflow (s := s.advance) nnn hsp, raiseInExecute_advance, encode_of_decode hd,
      commit_of_faulted s rfl]
  · rw [step_eq_commit hf hpc hd, exec_ret_underflow (s := s.advance) hsp, raiseInExecute_advance, commit_of_faulted s rfl]

/-- Settles O12: of the cases of a step only those that take a condition end with the latch set. -/
theorem fatalConditionsArePrecise : Obligations.FatalConditionsArePrecise := by
  intro s t r h hr
  obtain ⟨hf, ⟨r', rfl⟩ | ⟨-, i, u, -, -, hu, rfl⟩⟩ := step_cases_precise h
  · cases hr
    exact ⟨hf, rfl⟩
  · exact absurd (hu.symm.trans hr) (by simp)

/-- Settles O13: a legal SP gives every instruction a next state, and the commit keeps it one. -/
theorem unlatchedStepAlwaysAnswers : Obligations.UnlatchedStepAlwaysAnswers := by
  intro s hf hsp
  rcases Nat.lt_or_ge 0x0FFF s.pc.toNat with hpc | hpc
  · exact ⟨_, step_of_pcOutOfRange hf hpc⟩
  cases hd : decode s.fetchWord with
  | unknown w => exact ⟨_, step_of_unknown hf hpc hd⟩
  | instr i =>
    obtain ⟨u, hu⟩ := exec_answers_next i (s := s.advance) hsp
    rw [step_eq_commit hf hpc hd, hu]
    cases hr : u.fault with
    | none => exact ⟨_, commit_of_completed s hr⟩
    | some r => exact ⟨_, commit_of_faulted s hr⟩

/-- Settles O14: no instruction writes the keys, the previous keys or the parameters, and the commit of a completed cycle writes
the previous keys. -/
theorem completedCycleRecordsKeySample : Obligations.CompletedCycleRecordsKeySample := by
  intro s t h
  obtain ⟨-, ⟨r, rfl⟩ | ⟨-, i, u, -, he, hu, rfl⟩⟩ := step_cases_precise h
  · exact ⟨rfl, rfl, fun hnone => (nomatch hnone), fun _ => rfl⟩
  · have hframe := instructionWritesOnlyItsPieces i _ u he
    exact ⟨hframe .keys (not_mem_piecesWritten (by simp) _ i), hframe .params (not_mem_piecesWritten (by simp) _ i),
      fun _ => rfl, fun hne => absurd hu hne⟩

/-- Settles O15: a faulting cycle leaves the state before, and a completed one PC as its instruction left it. -/
theorem programCounterAfterCycle : Obligations.ProgramCounterAfterCycle := by
  intro s t h
  obtain ⟨hf, ⟨r, rfl⟩ | ⟨-, i, u, hd, he, hu, rfl⟩⟩ := step_cases_precise h
  · exact ⟨fun _ => rfl, fun _ _ hnone => nomatch hnone⟩
  · refine ⟨fun hne => absurd hu hne, fun j hj _ => ?_⟩
    cases hd.symm.trans hj
    exact (exec_advance_pc he hu :)

/-- Settles O48: without an edge the advance of PC is taken back, so only the commit changes anything. -/
theorem waitForKeyParksWithoutEdge : Obligations.WaitForKeyParksWithoutEdge := by
  intro s x hf hpc hd hheld
  have hnone : s.advance.firstEdge = none := State.firstEdge_eq_none.mpr fun k =>
    State.keyEdge_eq_false_iff.mpr fun ⟨hup, hdown⟩ => Bool.false_ne_true (hup.symm.trans (hheld k hdown))
  rw [step_eq_commit hf hpc hd, exec_ldVxKey_park x hnone, State.rewind_advance, commit_of_completed s hf]

end Sys2Proof.Machine
end

section
/-! Proofs, families 60 and 70 continued (boundary operations, reset): the key level, the program load, and the reset state. -/

namespace Sys2Proof.Machine

/-! ### set_key -/

theorem State.setKey_of_key (s : State) (k : Key) (isDown : Bool) :
    s.setKey k.toNat isDown = ({ s with keys := s.keys.setIfInBounds k.toNat isDown }, none) := by
  have hin : ¬ ((k.toNat : Int) < 0 ∨ 15 < (k.toNat : Int)) := by omega
  rw [State.setKey, if_neg hin, Int.toNat_natCast]

theorem State.setKey_of_invalid (s : State) {index : Int} (isDown : Bool) (h : index < 0 ∨ 15 < index) :
    s.setKey index isDown = (s, some (.invalidKeyIndex index)) := by
  rw [State.setKey, if_pos h]

theorem State.keyDown_with_keys (s : State) (k j : Key) (isDown : Bool) :
    ({ s with keys := s.keys.setIfInBounds k.toNat isDown } : State).keyDown j = if k = j then isDown else s.keyDown j := by
  simp [State.keyDown, Vector.getElem_setIfInBounds, BitVec.toNat_inj]

theorem onlyChanges_with_keys (s : State) (keys : Vector Bool 16) : OnlyChanges [.keys] s { s with keys := keys } := by
  intro p hp
  cases p with
  | keys => exact absurd (List.mem_singleton_self _) hp
  | v | mem => exact fun _ => rfl
  | provider => exact ⟨rfl, rfl⟩
  | i | pc | sp | stack | dt | st | fb | prevKeys | fault | params => rfl

theorem onlyChanges_setKey (s : State) (index : Int) (isDown : Bool) : OnlyChanges [.keys] s (s.setKey index isDown).1 := by
  unfold State.setKey
  split
  · exact .refl _ s
  · exact onlyChanges_with_keys s _

theorem State.setKey_draws (s : State) (index : Int) (isDown : Bool) : (s.setKey index isDown).1.draws = s.draws :=
  (onlyChanges_setKey s index isDown .provider (by decide)).2

/-! ### load_program -/

theorem State.loadProgram_of_long (s : State) {bytes : List Byte} (h : 3584 < bytes.length) :
    s.loadProgram bytes = (s, some (.programTooLarge bytes.length)) := by
  rw [State.loadProgram, Config.programMaxLen, if_pos h]

theorem State.loadProgram_of_fit (s : State) {bytes : List Byte} (h : bytes.length ≤ 3584) :
    s.loadProgram bytes = (copyImage 0x200 bytes s.restart, none) := by
  rw [State.loadProgram, Config.programMaxLen, if_neg (Nat.not_lt.mpr h), Config.programBase]

theorem onlyChanges_copyImage (a : Nat) (bytes : List Byte) (s : State) : OnlyChanges [.mem] s (copyImage a bytes s) := by
  induction bytes generalizing a s with
  | nil => exact .refl _ s
  | cons b rest ih => exact ((onlyChanges_memWrite s _ b).trans (ih _ _)).mono (by simp)

/-- A restart differs from the reset in the provider's bytes alone. -/
theorem onlyChanges_restart (s : State) : OnlyChanges [.provider] (State.resetWith s.params) s.restart := by
  intro p hp
  cases p with
  | provider => exact absurd (List.mem_singleton_self _) hp
  | v | mem => exact fun _ => rfl
  | i | pc | sp | stack | dt | st | fb | keys | prevKeys | fault | params => rfl

/-- The image is copied into the empty memory, which is canonical. -/
theorem State.restart_wf (s : State) : s.restart.mem.wf s.restart.params = true := rfl

/-! ### The provider's queue -/

theorem onlyChanges_supplyByte (s : State) (b : Byte) : OnlyChanges [.provider] s (s.supplyByte b) := by
  intro p hp
  cases p with
  | provider => exact absurd (List.mem_singleton_self _) hp
  | v | mem => exact fun _ => rfl
  | i | pc | sp | stack | dt | st | fb | keys | prevKeys | fault | params => rfl

/-! ### Memory at reset -/

theorem State.memRead_resetWith (p : Params) (a : Addr) : (State.resetWith p).memRead a = background p a.toNat := rfl

theorem background_font (p : Params) (k : Fin 80) : background p (p.fontBase.val + k.val) = p.fontData[k] := by
  simp [background]

theorem background_outside_font {p : Params} {a : Nat} (h : a < p.fontBase.val ∨ p.fontBase.val + 80 ≤ a) :
    background p a = 0x00#8 :=
  dif_neg (by omega)

/-- The highest font ends below the entry point (20_memory.md R61). -/
theorem background_of_program (p : Params) {a : Nat} (h : 0x200 ≤ a) : background p a = 0x00#8 :=
  background_outside_font (.inr (by have hp := p.fontBase.isLt; omega))

theorem fetchWord_resetWith (p : Params) : (State.resetWith p).fetchWord = 0x0000#16 := by
  rw [State.fetchWord, State.memRead_resetWith, State.memRead_resetWith, State.resetWith_pc,
    background_of_program p (by decide), background_of_program p (by decide)]
  rfl

/-! ### The obligations -/

/-- Settles O49: an index that is a key number writes that level, any other one is turned away. -/
theorem setKeyWritesOneLevel : Obligations.SetKeyWritesOneLevel := by
  refine fun s index isDown => ⟨?_, s.setKey_of_invalid isDown⟩
  rintro k rfl
  rw [State.setKey_of_key]
  refine ⟨rfl, ?_, fun j hj => ?_, onlyChanges_with_keys s _⟩
  · rw [State.keyDown_with_keys, if_pos rfl]
  · rw [State.keyDown_with_keys, if_neg hj.symm]

/-- Settles O50: the copy starts from the reset state, whose memory is canonical, and writes the image's addresses alone. -/
theorem loadProgramResult : Obligations.LoadProgramResult := by
  refine fun s bytes => ⟨s.loadProgram_of_long, fun hfit => ?_⟩
  rw [s.loadProgram_of_fit hfit]
  have hframe := onlyChanges_copyImage 0x200 bytes s.restart
  obtain ⟨hsupplied, hdraws⟩ := hframe .provider (by decide)
  refine ⟨rfl, memRead_copyImage s.restart_wf (by omega), fun a ha => ?_, ?_, hsupplied, hdraws⟩
  · exact memRead_copyImage_other s.restart ha (by omega)
  · exact ((onlyChanges_restart s).trans hframe).mono (by simp)

/-- Settles O53: the cycle stops at the latch, and each other operation has its own frame. -/
theorem latchedMachineChangesOnlyKeysAndTimers : Obligations.LatchedMachineChangesOnlyKeysAndTimers := by
  intro s r e hf he
  cases e with
  | runCycle =>
    rw [applyEvent, (latchedCycleReturnsSameRecord s r hf).2]
    exact ⟨.refl _ s, rfl⟩
  | tickTimers => exact ⟨(onlyChanges_tickTimers s).mono (by simp), rfl⟩
  | setKey index isDown => exact ⟨(onlyChanges_setKey s index isDown).mono (by simp), s.setKey_draws index isDown⟩
  | loadProgram bytes => exact absurd rfl (he bytes)
  | displaySnapshot | shouldPlaySound => exact ⟨.refl _ s, rfl⟩
  | supplyByte b => exact ⟨(onlyChanges_supplyByte s b).mono (by simp), rfl⟩

/-- Settles O54: memory lists nothing, so it reads as the font and zeros, and every other piece is written out. -/
theorem resetValues : Obligations.ResetValues := by
  refine ⟨rfl, fun p => ⟨rfl, fun r => ?_, rfl, rfl, rfl, fun k => ?_, fun y x => ?_, rfl, rfl, fun k => ?_, fun k => ?_, rfl,
    fun k => ?_, fun a ha => ?_⟩⟩
  · simp [State.readV]
  · simp
  · exact Display.pixel_clear y x
  · simp [State.keyDown]
  · simp [State.keyWasDown]
  · have hp := p.fontBase.isLt
    rw [State.memRead_resetWith, BitVec.toNat_ofNat, Nat.mod_eq_of_lt (by omega), background_font]
  · rw [State.memRead_resetWith, background_outside_font ha]

/-- Settles O55: with nothing loaded the word at the entry point is 0x0000, which selects no row. -/
theorem firstCycleFromResetTakesUnknownOpcode : Obligations.FirstCycleFromResetTakesUnknownOpcode := by
  intro p
  have hd : decode (State.resetWith p).fetchWord = .unknown 0x0000#16 := by
    rw [fetchWord_resetWith]
    decide
  exact ⟨_, step_of_unknown rfl (by rw [State.resetWith_pc]; decide) hd, rfl, step_of_latched rfl⟩

end Sys2Proof.Machine
end

section
/-! Proofs: the invariants of 10_state.md R38 hold at reset and every step and operation keeps them, and a latched record is and
stays true of the state it is latched in. -/

namespace Sys2Proof.Machine

/-! ### Invariants on the pieces they speak of -/

/-- The invariants speak of memory, I, SP, PC and the stack alone. -/
theorem State.Inv.congr {s t : State} (h : s.Inv) (hmem : t.mem = s.mem) (hparams : t.params = s.params) (hi : t.i = s.i)
    (hsp : t.sp = s.sp) (hpc : t.pc = s.pc) (hstack : t.stack = s.stack) : t.Inv where
  mem_wf := by rw [hmem, hparams]; exact h.mem_wf
  index_le := by rw [hi]; exact h.index_le
  sp_le := by rw [hsp]; exact h.sp_le
  pc_le := by rw [hpc]; exact h.pc_le
  live_le := by rw [hsp, hstack]; exact h.live_le

theorem State.inv_resetWith (p : Params) : (State.resetWith p).Inv where
  mem_wf := rfl
  index_le := by rw [State.resetWith_i]; decide
  sp_le := by rw [State.resetWith_sp]; decide
  pc_le := by rw [State.resetWith_pc]; decide
  live_le := fun _ hk => absurd hk (Nat.not_lt_zero _)

/-! ### What an instruction does to I, SP and the stack -/

theorem toNat_zextAddr_le (nnn : Addr) : (zextAddr nnn).toNat ≤ 0x0FFF := by
  rw [toNat_zextAddr]
  omega

/-- I is written by ANNN, FX1E and FX29 alone, and by each within 12 bits. -/
theorem exec_index_le {i : Instr} {s t : State} (hs : s.i.toNat ≤ 0x0FFF) (h : exec i s = .next t) : t.i.toNat ≤ 0x0FFF := by
  cases i with
  | ldI nnn => cases h; exact toNat_zextAddr_le nnn
  | addI x =>
    cases h
    rw [State.addIndex]
    split <;> exact toNat_zextAddr_le _
  | ldFont x =>
    cases h
    rw [State.setI_i, toNat_glyphAddress]
    have hp := s.params.fontBase.isLt
    omega
  | _ => rwa [instructionWritesOnlyItsPieces _ s t h .i (by simp [piecesWritten])]

/-- SP stays legal, and a call is the only instruction that adds a return address: the advanced PC. -/
theorem exec_stack_bounds {i : Instr} {s t : State} (hsp : s.sp.toNat ≤ 16) (hpc : s.pc.toNat ≤ 0x1001)
    (hlive : ∀ k : Fin 16, k.val < s.sp.toNat → (s.stack[k.val]'k.isLt).toNat ≤ 0x1001) (h : exec i s = .next t) :
    t.sp.toNat ≤ 16 ∧ ∀ k : Fin 16, k.val < t.sp.toNat → (t.stack[k.val]'k.isLt).toNat ≤ 0x1001 := by
  cases i with
  | call nnn =>
    obtain ⟨-, rfl⟩ | ⟨hlt, rfl⟩ := exec_call_cases h
    · exact ⟨hsp, hlive⟩
    · have hsp' : (s.sp + 1#8).toNat = s.sp.toNat + 1 := by bv_omega
      refine ⟨hsp'.trans_le hlt, fun k hk => ?_⟩
      have hk' : k.val < s.sp.toNat + 1 := hsp' ▸ hk
      simp only [State.setPc_stack, State.push_stack, Vector.getElem_setIfInBounds]
      split
      · exact hpc
      · exact hlive k (by omega)
  | ret =>
    obtain ⟨-, rfl⟩ | ⟨h0, w, -, rfl⟩ := exec_ret_cases h
    · exact ⟨hsp, hlive⟩
    · have hsp' : (s.sp - 1#8).toNat = s.sp.toNat - 1 := by bv_omega
      refine ⟨hsp'.trans_le (by omega), fun k hk => hlive k ?_⟩
      have hk' : k.val < s.sp.toNat - 1 := hsp' ▸ hk
      omega
  | addI x =>
    cases h
    rw [State.addIndex]
    split <;> exact ⟨hsp, hlive⟩
  | _ =>
    have hframe := instructionWritesOnlyItsPieces _ s t h
    have hsp' : t.sp = s.sp := hframe .sp (by simp [piecesWritten])
    have hstack : t.stack = s.stack := hframe .stack (by simp [piecesWritten])
    rw [hsp', hstack]
    exact ⟨hsp, hlive⟩

/-! ### What an instruction does to PC -/

theorem toNat_skipTarget_le {pc0 : Word} (hpc : pc0.toNat ≤ 0x0FFF) (c : Bool) : (skipTarget pc0 c).toNat ≤ 0x10FE := by
  unfold skipTarget
  split <;> bv_omega

/-- The highest PC is that of BNNN: 0x0FFF + 0xFF. -/
theorem toNat_pcAfterCycle_le {s : State} (hs : s.Inv) (hpc : s.pc.toNat ≤ 0x0FFF) {i : Instr}
    (hret : i = .ret → s.sp.toNat ≠ 0) : (pcAfterCycle s i).toNat ≤ 0x10FE := by
  cases i with
  | ret =>
    have h0 := hret rfl
    have hsp := hs.sp_le
    have hlive := hs.live_le ⟨s.sp.toNat - 1, by omega⟩ (by dsimp only; omega)
    rw [pcAfterCycle, Vector.getElem?_eq_getElem (by omega), Option.getD_some]
    exact hlive.trans (by decide)
  | jp nnn | call nnn => rw [pcAfterCycle, BitVec.toNat_ofNat]; omega
  | jpV0 nnn => rw [pcAfterCycle, BitVec.toNat_ofNat]; omega
  | seImm | sneImm | seReg | sneReg | skp | sknp => exact toNat_skipTarget_le hpc _
  | ldVxKey x =>
    rw [pcAfterCycle]
    split <;> bv_omega
  | _ => rw [pcAfterCycle]; bv_omega

/-! ### The step and the operations keep the invariants -/

theorem step_keeps_inv {s t : State} (hs : s.Inv) (h : step s = .next t) : t.Inv := by
  obtain ⟨-, ⟨r, rfl⟩ | ⟨hpc, i, u, -, he, hu, rfl⟩⟩ := step_cases_precise h
  · exact hs.congr rfl rfl rfl rfl rfl rfl
  · have hadvance : s.advance.pc.toNat ≤ 0x1001 := by
      rw [State.advance_pc]
      bv_omega
    obtain ⟨hsp, hlive⟩ := exec_stack_bounds (s := s.advance) hs.sp_le hadvance hs.live_le he
    have hret : i = .ret → s.sp.toNat ≠ 0 := by
      rintro rfl h0
      cases (exec_ret_underflow (s := s.advance) h0).symm.trans he
      cases hu
    have hinv : u.Inv := {
      mem_wf := exec_keeps_memory_wf (s := s.advance) hs.mem_wf he
      index_le := exec_index_le (s := s.advance) hs.index_le he
      sp_le := hsp
      pc_le := (congrArg BitVec.toNat (exec_advance_pc he hu)).trans_le (toNat_pcAfterCycle_le hs hpc hret)
      live_le := hlive }
    exact hinv.congr rfl rfl rfl rfl rfl rfl

/-- A cycle leaves the state its step answers, or the state as it was. -/
theorem applyEvent_runCycle_cases (s : State) :
    (∃ t, step s = .next t ∧ (applyEvent .runCycle s).1 = t) ∨ (applyEvent .runCycle s).1 = s := by
  rw [applyEvent, runCycle]
  split
  · next t ht => exact .inl ⟨t, ht, rfl⟩
  all_goals exact .inr rfl

theorem setKey_fst_eq (s : State) (index : Int) (isDown : Bool) :
    (s.setKey index isDown).1 = { s with keys := (s.setKey index isDown).1.keys } := by
  unfold State.setKey
  split <;> rfl

theorem loadProgram_keeps_inv {s : State} (hs : s.Inv) (bytes : List Byte) : (s.loadProgram bytes).1.Inv := by
  rcases Nat.lt_or_ge 3584 bytes.length with hlong | hfit
  · rw [s.loadProgram_of_long hlong]
    exact hs
  · have hwf := copyImage_wf s.restart_wf 0x200 bytes
    rw [s.loadProgram_of_fit hfit]
    rw [copyImage_eq] at hwf ⊢
    exact { State.inv_resetWith s.params with mem_wf := hwf }

theorem applyEvent_keeps_inv {s : State} (hs : s.Inv) (e : Event) : (applyEvent e s).1.Inv := by
  cases e with
  | runCycle =>
    obtain ⟨t, ht, hrun⟩ | hrun := applyEvent_runCycle_cases s
    · exact hrun ▸ step_keeps_inv hs ht
    · exact hrun.symm ▸ hs
  | tickTimers | supplyByte => exact hs.congr rfl rfl rfl rfl rfl rfl
  | setKey index isDown =>
    rw [applyEvent, setKey_fst_eq]
    exact hs.congr rfl rfl rfl rfl rfl rfl
  | loadProgram bytes => exact loadProgram_keeps_inv hs bytes
  | displaySnapshot | shouldPlaySound => exact hs

/-! ### The truth of the latch -/

/-- What the latch says depends on the latch, PC, SP and the word at PC. -/
theorem State.LatchTrue.congr {s t : State} (h : s.LatchTrue) (hf : t.fault = s.fault) (hpc : t.pc = s.pc) (hsp : t.sp = s.sp)
    (hw : t.fetchWord = s.fetchWord) : t.LatchTrue := by
  unfold State.LatchTrue at *
  rwa [hf, hpc, hsp, hw]

theorem State.latchTrue_of_none {s : State} (h : s.fault = none) : s.LatchTrue := by
  unfold State.LatchTrue
  rw [h]
  trivial

/-- A record that a step latches is true: the step has just checked the condition it names. -/
theorem step_latchTrue {s t : State} (h : step s = .next t) : t.LatchTrue := by
  obtain ⟨hf, ⟨hpc, rfl⟩ | ⟨hpc, w, hd, rfl⟩ | ⟨hpc, i, u, hd, he, ⟨hu, rfl⟩ | ⟨hu, rfl⟩⟩⟩ := step_cases h
  · exact ⟨rfl, hpc⟩
  · have hw := eq_of_decode_unknown hd
    exact ⟨rfl, hpc, hw, hw ▸ decode_eq_unknown_iff.mp (hw ▸ hd)⟩
  · exact State.latchTrue_of_none hu
  · obtain ⟨nnn, rfl, hsp, rfl⟩ | ⟨rfl, hsp, rfl⟩ := exec_advance_faulted hf he hu
    · exact ⟨rfl, hpc, encode_of_decode hd, hsp, opField_encodeNNN _ _⟩
    · exact ⟨rfl, hpc, encode_of_decode hd, hsp, rfl⟩

theorem applyEvent_latchTrue {s : State} (hs : s.LatchTrue) (e : Event) : (applyEvent e s).1.LatchTrue := by
  cases e with
  | runCycle =>
    obtain ⟨t, ht, hrun⟩ | hrun := applyEvent_runCycle_cases s
    · exact hrun ▸ step_latchTrue ht
    · exact hrun.symm ▸ hs
  | tickTimers | supplyByte => exact hs.congr rfl rfl rfl rfl
  | setKey index isDown =>
    rw [applyEvent, setKey_fst_eq]
    exact hs.congr rfl rfl rfl rfl
  | loadProgram bytes =>
    rcases Nat.lt_or_ge 3584 bytes.length with hlong | hfit
    · rw [applyEvent, s.loadProgram_of_long hlong]
      exact hs
    · rw [applyEvent, s.loadProgram_of_fit hfit, copyImage_eq]
      exact State.latchTrue_of_none rfl
  | displaySnapshot | shouldPlaySound => exact hs

/-- What holds at reset and is kept by every operation holds of every reachable state. -/
theorem Reachable.induct {P : State → Prop} (hreset : ∀ p, P (State.resetWith p))
    (hevent : ∀ s, P s → ∀ e, P (applyEvent e s).1) {s : State} (h : Reachable s) : P s := by
  induction h with
  | reset p => exact hreset p
  | event e _ ih => exact hevent _ ih e

/-! ### The obligations -/

/-- Settles O57: SP, the stack and I by the instructions that write them, PC by the table of its values after a cycle. -/
theorem stepKeepsInvariant : Obligations.StepKeepsInvariant := fun _ _ => step_keeps_inv

/-- Settles O60: a step latches a record only after it has checked its condition, and no other operation writes what the record
speaks of. -/
theorem stepKeepsLatchTruth : Obligations.StepKeepsLatchTruth :=
  fun _ hs => ⟨fun _ => step_latchTrue, applyEvent_latchTrue hs⟩

/-- Settles O58: the invariants hold at reset and every operation keeps them. -/
theorem reachableStatesHaveInvariant : Obligations.ReachableStatesHaveInvariant := fun _ =>
  Reachable.induct State.inv_resetWith fun _ => applyEvent_keeps_inv

/-- Settles O59: the latch is clear at reset and every operation keeps it true. -/
theorem reachableLatchTellsTruth : Obligations.ReachableLatchTellsTruth := fun _ =>
  Reachable.induct (fun _ => State.latchTrue_of_none rfl) fun _ => applyEvent_latchTrue

/-- Settles O56: no return address is live, memory lists nothing, and I, SP and PC are fixed numbers. -/
theorem invariantHoldsAtReset : Obligations.InvariantHoldsAtReset := State.inv_resetWith

end Sys2Proof.Machine
end
